-- ==== Sys2Proof/Word.lean ====
section
/-! DEFINITION. The word types of the chip8-rs CORE and the names of its registers. Everything is unsigned
(00_scope.md R9): no signed view of any of these types is used. -/

namespace Sys2Proof

/-- A byte: a general register, a timer, a memory cell (10_state.md R10, R17; 20_memory.md R40). -/
abbrev Byte := BitVec 8

/-- A 16-bit word: an instruction word, `I`, `pc`, a stack entry, an input mask
(30_encoding.md R60; 10_state.md R12, R13, R14, R20). -/
abbrev Word := BitVec 16

/-- The number of a general register: the 4-bit field `x` or `y` of an instruction word (30_encoding.md R63). -/
abbrev Reg := BitVec 4

/-- A 4-bit field that is not a register number: a row count or a low nibble (30_encoding.md R63). -/
abbrev Nibble := BitVec 4

/-- A 12-bit address field `nnn` (30_encoding.md R63). -/
abbrev Addr12 := BitVec 12

/-- `VF`, register 15, the flag output (10_state.md R11). -/
abbrev VF : Reg := 0xF#4

/-- `V0`, register 0, the base of the jump with offset (41_flow.md R104). -/
abbrev V0 : Reg := 0x0#4

end Sys2Proof
end

