-- ==== Sys2Proof/Machine/Subcodes.lean ====
section
/-! DEFINITION. The recognised sub-codes of groups 0, 8, E and F. They stand under Machine/ so that a repair may mend a
value: every one but 0x0EE is supplied from general knowledge by the spec itself (92_eei_decisions.md D32). -/

namespace Sys2Proof

/-- The two operands of group 0 that select an instruction of their own (30_encoding.md R67). -/
def group0Recognised (nnn : Addr12) : Bool := nnn == 0x0E0#12 || nnn == 0x0EE#12

/-- The low nibbles of group 8 that select an operation (30_encoding.md R69). -/
def group8Recognised (n : Nibble) : Bool :=
  n == 0x0#4 || n == 0x1#4 || n == 0x2#4 || n == 0x3#4 || n == 0x4#4 || n == 0x5#4 || n == 0x6#4 || n == 0x7#4 ||
    n == 0xE#4

/-- The low bytes of group E that select a key test (30_encoding.md R70). -/
def groupERecognised (kk : Byte) : Bool := kk == 0x9E#8 || kk == 0xA1#8

/-- The low bytes of group F that select an instruction (30_encoding.md R71). -/
def groupFRecognised (kk : Byte) : Bool :=
  kk == 0x07#8 || kk == 0x0A#8 || kk == 0x15#8 || kk == 0x18#8 || kk == 0x1E#8 || kk == 0x29#8 || kk == 0x33#8 ||
    kk == 0x55#8 || kk == 0x65#8

end Sys2Proof
end

