-- ==== Sys2Proof/Syntax.lean ====
section
/-! DEFINITION. The instruction set: one constructor per row of spec/opcode_table.json, in the table's order, carrying every
bit of the word that the row does not fix (30_encoding.md R63, R66). -/

namespace Sys2Proof

/-- The 38 rows of the opcode table: 35 instructions and the three catch-all rows of unrecognised sub-codes. A field the
instruction ignores (the low nibble of groups 5 and 9, `y` of the two shifts) is kept, so that no bit of a word is lost
(log entry 14). -/
inductive Instr where
  /-- 00E0, clear-screen (41_flow.md R100). -/
  | cls
  /-- 00EE, subroutine return (R101). -/
  | ret
  /-- 0nnn, every other word of group 0: a no-op (R105). -/
  | sys (nnn : Addr12)
  /-- 1nnn, absolute jump (R102). -/
  | jp (nnn : Addr12)
  /-- 2nnn, subroutine call (R103). -/
  | call (nnn : Addr12)
  /-- 3xkk, skip if register equals literal (42_skips.md R110). -/
  | seVxKk (x : Reg) (kk : Byte)
  /-- 4xkk, skip if register differs from literal (R111). -/
  | sneVxKk (x : Reg) (kk : Byte)
  /-- 5xy_, skip if registers are equal; the low nibble is not examined (R112, 30_encoding.md R68). -/
  | seVxVy (x y : Reg) (n : Nibble)
  /-- 6xkk, load-literal (43_load_alu.md R120). -/
  | ldVxKk (x : Reg) (kk : Byte)
  /-- 7xkk, add-literal (R121). -/
  | addVxKk (x : Reg) (kk : Byte)
  /-- 8xy0, copy (R122). -/
  | ldVxVy (x y : Reg)
  /-- 8xy1, or (R123). -/
  | orVxVy (x y : Reg)
  /-- 8xy2, and (R124). -/
  | andVxVy (x y : Reg)
  /-- 8xy3, exclusive or (R125). -/
  | xorVxVy (x y : Reg)
  /-- 8xy4, add-with-carry (R126). -/
  | addVxVy (x y : Reg)
  /-- 8xy5, subtract-with-borrow (R127). -/
  | subVxVy (x y : Reg)
  /-- 8xy6, shift-right in place; `y` is ignored (R128). -/
  | shrVx (x y : Reg)
  /-- 8xy7, reverse-subtract (R129). -/
  | subnVxVy (x y : Reg)
  /-- 8xyE, shift-left in place; `y` is ignored (R130). -/
  | shlVx (x y : Reg)
  /-- 9xy_, skip if registers differ; the low nibble is not examined (42_skips.md R113, 30_encoding.md R68). -/
  | sneVxVy (x y : Reg) (n : Nibble)
  /-- Annn, set-index (44_index_memory.md R140). -/
  | ldI (nnn : Addr12)
  /-- Bnnn, jump-with-offset (41_flow.md R104). -/
  | jpV0 (nnn : Addr12)
  /-- Cxkk, masked-random (45_random_draw.md R151). -/
  | rnd (x : Reg) (kk : Byte)
  /-- Dxyn, sprite draw (R153). -/
  | drw (x y : Reg) (n : Nibble)
  /-- Ex9E, skip if the key is pressed (46_keys_timers.md R160). -/
  | skp (x : Reg)
  /-- ExA1, skip if the key is not pressed (R161). -/
  | sknp (x : Reg)
  /-- Fx07, delay-timer read (R162). -/
  | ldVxDt (x : Reg)
  /-- Fx0A, key-wait (R163). -/
  | ldVxK (x : Reg)
  /-- Fx15, delay-timer write (R164). -/
  | ldDtVx (x : Reg)
  /-- Fx18, sound-timer write (R165). -/
  | ldStVx (x : Reg)
  /-- Fx1E, index increment (44_index_memory.md R141). -/
  | addIVx (x : Reg)
  /-- Fx29, font-glyph address lookup (R142). -/
  | ldFVx (x : Reg)
  /-- Fx33, binary-coded-decimal decomposition (R143). -/
  | ldBVx (x : Reg)
  /-- Fx55, block register-to-memory transfer (R144). -/
  | ldMemVx (x : Reg)
  /-- Fx65, block memory-to-register transfer (R145). -/
  | ldVxMem (x : Reg)
  /-- A group-8 word with an unrecognised low nibble: a no-op (30_encoding.md R69, R72). -/
  | nop8 (x y : Reg) (n : Nibble)
  /-- A group-E word with an unrecognised low byte: a no-op (R70, R72). -/
  | nopE (x : Reg) (kk : Byte)
  /-- A group-F word with an unrecognised low byte: a no-op (R71, R72). -/
  | nopF (x : Reg) (kk : Byte)
  deriving DecidableEq, Repr

end Sys2Proof
end

