-- ==== Sys2Proof/WellFormed.lean ====
section
/-! DEFINITION. Well-formed instructions: a catch-all row of the opcode table stands only for the words that no earlier row
takes (30_encoding.md R72, R78). Every other constructor is well formed whatever its fields. -/

namespace Sys2Proof

/-- The instruction is the one its own word decodes to: a catch-all constructor carries no recognised sub-code. -/
def Instr.wf : Instr → Bool
  | .sys nnn => !group0Recognised nnn
  | .nop8 _ _ n => !group8Recognised n
  | .nopE _ kk => !groupERecognised kk
  | .nopF _ kk => !groupFRecognised kk
  | .cls | .ret | .jp _ | .call _ | .seVxKk _ _ | .sneVxKk _ _ | .seVxVy _ _ _ | .ldVxKk _ _ | .addVxKk _ _
  | .ldVxVy _ _ | .orVxVy _ _ | .andVxVy _ _ | .xorVxVy _ _ | .addVxVy _ _ | .subVxVy _ _ | .shrVx _ _
  | .subnVxVy _ _ | .shlVx _ _ | .sneVxVy _ _ _ | .ldI _ | .jpV0 _ | .rnd _ _ | .drw _ _ _ | .skp _ | .sknp _
  | .ldVxDt _ | .ldVxK _ | .ldDtVx _ | .ldStVx _ | .addIVx _ | .ldFVx _ | .ldBVx _ | .ldMemVx _ | .ldVxMem _ => true

end Sys2Proof
end

