-- ==== Sys2Proof/Decode.lean ====
section
/-! DEFINITION. The decoder, total on any bytes, and after it the encoder, both from the encoding tables of 30_encoding.md.
Every 16-bit word decodes to an instruction (R73); the only thing a decoder of bytes rejects is fewer than two bytes. -/

namespace Sys2Proof

/-! ## Fields (30_encoding.md R62, R63) -/

/-- The group: the top four bits of the word (R62). -/
def groupOf (w : Word) : Nibble := w.extractLsb' 12 4

/-- The field `nnn`, bits 11:0, the whole operand (R62, R63). -/
def fieldNnn (w : Word) : Addr12 := w.extractLsb' 0 12

/-- The field `x`, bits 11:8 (R63). -/
def fieldX (w : Word) : Reg := w.extractLsb' 8 4

/-- The field `y`, bits 7:4 (R63). -/
def fieldY (w : Word) : Reg := w.extractLsb' 4 4

/-- The field `kk`, bits 7:0; in groups E and F the sub-code (R63). -/
def fieldKk (w : Word) : Byte := w.extractLsb' 0 8

/-- The field `n`, bits 3:0; in group 8 the sub-code (R63). -/
def fieldN (w : Word) : Nibble := w.extractLsb' 0 4

/-! ## Decoding (30_encoding.md R65 to R73, R78) -/

/-- Group 0: the whole 12-bit operand is compared (R67). -/
def decodeGroup0 (w : Word) : Instr :=
  match (fieldNnn w).toNat with
  | 0x0E0 => .cls
  | 0x0EE => .ret
  | _ => .sys (fieldNnn w)

/-- Group 8: the low nibble selects the operation (R69). -/
def decodeGroup8 (w : Word) : Instr :=
  match (fieldN w).toNat with
  | 0x0 => .ldVxVy (fieldX w) (fieldY w)
  | 0x1 => .orVxVy (fieldX w) (fieldY w)
  | 0x2 => .andVxVy (fieldX w) (fieldY w)
  | 0x3 => .xorVxVy (fieldX w) (fieldY w)
  | 0x4 => .addVxVy (fieldX w) (fieldY w)
  | 0x5 => .subVxVy (fieldX w) (fieldY w)
  | 0x6 => .shrVx (fieldX w) (fieldY w)
  | 0x7 => .subnVxVy (fieldX w) (fieldY w)
  | 0xE => .shlVx (fieldX w) (fieldY w)
  | _ => .nop8 (fieldX w) (fieldY w) (fieldN w)

/-- Group E: the low byte selects the key test (R70). -/
def decodeGroupE (w : Word) : Instr :=
  match (fieldKk w).toNat with
  | 0x9E => .skp (fieldX w)
  | 0xA1 => .sknp (fieldX w)
  | _ => .nopE (fieldX w) (fieldKk w)

/-- Group F: the low byte selects the instruction (R71). -/
def decodeGroupF (w : Word) : Instr :=
  match (fieldKk w).toNat with
  | 0x07 => .ldVxDt (fieldX w)
  | 0x0A => .ldVxK (fieldX w)
  | 0x15 => .ldDtVx (fieldX w)
  | 0x18 => .ldStVx (fieldX w)
  | 0x1E => .addIVx (fieldX w)
  | 0x29 => .ldFVx (fieldX w)
  | 0x33 => .ldBVx (fieldX w)
  | 0x55 => .ldMemVx (fieldX w)
  | 0x65 => .ldVxMem (fieldX w)
  | _ => .nopF (fieldX w) (fieldKk w)

/-- The instruction of a word: the group selects a handler, and in groups 0, 8, E and F a sub-code selects the
instruction (R65, R66, R73). A function of the word alone (R78). -/
def decodeWord (w : Word) : Instr :=
  match (groupOf w).toNat with
  | 0x0 => decodeGroup0 w
  | 0x1 => .jp (fieldNnn w)
  | 0x2 => .call (fieldNnn w)
  | 0x3 => .seVxKk (fieldX w) (fieldKk w)
  | 0x4 => .sneVxKk (fieldX w) (fieldKk w)
  | 0x5 => .seVxVy (fieldX w) (fieldY w) (fieldN w)
  | 0x6 => .ldVxKk (fieldX w) (fieldKk w)
  | 0x7 => .addVxKk (fieldX w) (fieldKk w)
  | 0x8 => decodeGroup8 w
  | 0x9 => .sneVxVy (fieldX w) (fieldY w) (fieldN w)
  | 0xA => .ldI (fieldNnn w)
  | 0xB => .jpV0 (fieldNnn w)
  | 0xC => .rnd (fieldX w) (fieldKk w)
  | 0xD => .drw (fieldX w) (fieldY w) (fieldN w)
  | 0xE => decodeGroupE w
  | _ => decodeGroupF w

/-- Why a decoder of bytes rejects its input. -/
inductive DecodeError where
  /-- Fewer than two bytes: there is one instruction length, two bytes (R60). -/
  | truncated
  deriving DecidableEq, Repr

/-- The word of two bytes, big-endian: the first byte is bits 15:8 (R61, 20_memory.md R46). -/
def wordOfBytes (hi lo : Byte) : Word := hi ++ lo

/-- The two bytes of a word in memory order, the high byte at the lower address (R61, 20_memory.md R46). -/
def bytesOfWord (w : Word) : List Byte := [w.extractLsb' 8 8, w.extractLsb' 0 8]

/-- Decode the instruction at the head of a list of bytes, and answer the bytes after it. Every two bytes decode (R73). -/
def decodeBytes : List Byte → Except DecodeError (Instr × List Byte)
  | hi :: lo :: rest => .ok (decodeWord (wordOfBytes hi lo), rest)
  | _ => .error .truncated

/-! ## Encoding (30_encoding.md R64, R66) -/

/-- The word of an instruction, format by format (R64), with the group and sub-code of its row (R66). -/
def encode : Instr → Word
  | .cls => 0x00E0#16
  | .ret => 0x00EE#16
  | .sys nnn => 0x0#4 ++ nnn
  | .jp nnn => 0x1#4 ++ nnn
  | .call nnn => 0x2#4 ++ nnn
  | .seVxKk x kk => 0x3#4 ++ x ++ kk
  | .sneVxKk x kk => 0x4#4 ++ x ++ kk
  | .seVxVy x y n => 0x5#4 ++ x ++ y ++ n
  | .ldVxKk x kk => 0x6#4 ++ x ++ kk
  | .addVxKk x kk => 0x7#4 ++ x ++ kk
  | .ldVxVy x y => 0x8#4 ++ x ++ y ++ 0x0#4
  | .orVxVy x y => 0x8#4 ++ x ++ y ++ 0x1#4
  | .andVxVy x y => 0x8#4 ++ x ++ y ++ 0x2#4
  | .xorVxVy x y => 0x8#4 ++ x ++ y ++ 0x3#4
  | .addVxVy x y => 0x8#4 ++ x ++ y ++ 0x4#4
  | .subVxVy x y => 0x8#4 ++ x ++ y ++ 0x5#4
  | .shrVx x y => 0x8#4 ++ x ++ y ++ 0x6#4
  | .subnVxVy x y => 0x8#4 ++ x ++ y ++ 0x7#4
  | .shlVx x y => 0x8#4 ++ x ++ y ++ 0xE#4
  | .sneVxVy x y n => 0x9#4 ++ x ++ y ++ n
  | .ldI nnn => 0xA#4 ++ nnn
  | .jpV0 nnn => 0xB#4 ++ nnn
  | .rnd x kk => 0xC#4 ++ x ++ kk
  | .drw x y n => 0xD#4 ++ x ++ y ++ n
  | .skp x => 0xE#4 ++ x ++ 0x9E#8
  | .sknp x => 0xE#4 ++ x ++ 0xA1#8
  | .ldVxDt x => 0xF#4 ++ x ++ 0x07#8
  | .ldVxK x => 0xF#4 ++ x ++ 0x0A#8
  | .ldDtVx x => 0xF#4 ++ x ++ 0x15#8
  | .ldStVx x => 0xF#4 ++ x ++ 0x18#8
  | .addIVx x => 0xF#4 ++ x ++ 0x1E#8
  | .ldFVx x => 0xF#4 ++ x ++ 0x29#8
  | .ldBVx x => 0xF#4 ++ x ++ 0x33#8
  | .ldMemVx x => 0xF#4 ++ x ++ 0x55#8
  | .ldVxMem x => 0xF#4 ++ x ++ 0x65#8
  | .nop8 x y n => 0x8#4 ++ x ++ y ++ n
  | .nopE x kk => 0xE#4 ++ x ++ kk
  | .nopF x kk => 0xF#4 ++ x ++ kk

/-- The bytes of an instruction in memory order. -/
def encodeBytes (i : Instr) : List Byte := bytesOfWord (encode i)

/-! ## The opcode table (30_encoding.md R66, R78; spec/opcode_table.json) -/

/-- One row of the opcode table: a word `w` is the row's when `w AND mask = pattern` and no earlier row takes it. -/
structure OpcodeRow where
  mnemonic : String
  pattern  : Word
  mask     : Word
  deriving DecidableEq, Repr

/-- Does the row's mask and pattern take the word (R66)? -/
def OpcodeRow.takes (r : OpcodeRow) (w : Word) : Bool := w &&& r.mask == r.pattern

/-- The 38 rows, in priority order (R78). -/
def opcodeTable : List OpcodeRow :=
  [
    { mnemonic := "CLS", pattern := 0x00E0#16, mask := 0xFFFF#16 },
    { mnemonic := "RET", pattern := 0x00EE#16, mask := 0xFFFF#16 },
    { mnemonic := "SYS_nnn", pattern := 0x0000#16, mask := 0xF000#16 },
    { mnemonic := "JP_nnn", pattern := 0x1000#16, mask := 0xF000#16 },
    { mnemonic := "CALL_nnn", pattern := 0x2000#16, mask := 0xF000#16 },
    { mnemonic := "SE_Vx__kk", pattern := 0x3000#16, mask := 0xF000#16 },
    { mnemonic := "SNE_Vx__kk", pattern := 0x4000#16, mask := 0xF000#16 },
    { mnemonic := "SE_Vx__Vy", pattern := 0x5000#16, mask := 0xF000#16 },
    { mnemonic := "LD_Vx__kk", pattern := 0x6000#16, mask := 0xF000#16 },
    { mnemonic := "ADD_Vx__kk", pattern := 0x7000#16, mask := 0xF000#16 },
    { mnemonic := "LD_Vx__Vy", pattern := 0x8000#16, mask := 0xF00F#16 },
    { mnemonic := "OR_Vx__Vy", pattern := 0x8001#16, mask := 0xF00F#16 },
    { mnemonic := "AND_Vx__Vy", pattern := 0x8002#16, mask := 0xF00F#16 } ] ++
  [
    { mnemonic := "XOR_Vx__Vy", pattern := 0x8003#16, mask := 0xF00F#16 },
    { mnemonic := "ADD_Vx__Vy", pattern := 0x8004#16, mask := 0xF00F#16 },
    { mnemonic := "SUB_Vx__Vy", pattern := 0x8005#16, mask := 0xF00F#16 },
    { mnemonic := "SHR_Vx", pattern := 0x8006#16, mask := 0xF00F#16 },
    { mnemonic := "SUBN_Vx__Vy", pattern := 0x8007#16, mask := 0xF00F#16 },
    { mnemonic := "SHL_Vx", pattern := 0x800E#16, mask := 0xF00F#16 },
    { mnemonic := "SNE_Vx__Vy", pattern := 0x9000#16, mask := 0xF000#16 },
    { mnemonic := "LD_I__nnn", pattern := 0xA000#16, mask := 0xF000#16 },
    { mnemonic := "JP_V0__nnn", pattern := 0xB000#16, mask := 0xF000#16 },
    { mnemonic := "RND_Vx__kk", pattern := 0xC000#16, mask := 0xF000#16 },
    { mnemonic := "DRW_Vx__Vy__n", pattern := 0xD000#16, mask := 0xF000#16 },
    { mnemonic := "SKP_Vx", pattern := 0xE09E#16, mask := 0xF0FF#16 },
    { mnemonic := "SKNP_Vx", pattern := 0xE0A1#16, mask := 0xF0FF#16 } ] ++
  [
    { mnemonic := "LD_Vx__DT", pattern := 0xF007#16, mask := 0xF0FF#16 },
    { mnemonic := "LD_Vx__K", pattern := 0xF00A#16, mask := 0xF0FF#16 },
    { mnemonic := "LD_DT__Vx", pattern := 0xF015#16, mask := 0xF0FF#16 },
    { mnemonic := "LD_ST__Vx", pattern := 0xF018#16, mask := 0xF0FF#16 },
    { mnemonic := "ADD_I__Vx", pattern := 0xF01E#16, mask := 0xF0FF#16 },
    { mnemonic := "LD_F__Vx", pattern := 0xF029#16, mask := 0xF0FF#16 },
    { mnemonic := "LD_B__Vx", pattern := 0xF033#16, mask := 0xF0FF#16 },
    { mnemonic := "LD__I___Vx", pattern := 0xF055#16, mask := 0xF0FF#16 },
    { mnemonic := "LD_Vx___I", pattern := 0xF065#16, mask := 0xF0FF#16 },
    { mnemonic := "NOP8__unrecognised_group-8_sub-code", pattern := 0x8000#16, mask := 0xF000#16 },
    { mnemonic := "NOPE__unrecognised_group-E_sub-code", pattern := 0xE000#16, mask := 0xF000#16 },
    { mnemonic := "NOPF__unrecognised_group-F_sub-code", pattern := 0xF000#16, mask := 0xF000#16 } ]

/-- The number of the first row that takes the word: how R78 says a decoder can be written from the table alone. -/
def firstRow (w : Word) : Option Nat := opcodeTable.findIdx? (·.takes w)

/-- The number of the row an instruction stands for. -/
def Instr.rowIndex : Instr → Nat
  | .cls => 0
  | .ret => 1
  | .sys _ => 2
  | .jp _ => 3
  | .call _ => 4
  | .seVxKk _ _ => 5
  | .sneVxKk _ _ => 6
  | .seVxVy _ _ _ => 7
  | .ldVxKk _ _ => 8
  | .addVxKk _ _ => 9
  | .ldVxVy _ _ => 10
  | .orVxVy _ _ => 11
  | .andVxVy _ _ => 12
  | .xorVxVy _ _ => 13
  | .addVxVy _ _ => 14
  | .subVxVy _ _ => 15
  | .shrVx _ _ => 16
  | .subnVxVy _ _ => 17
  | .shlVx _ _ => 18
  | .sneVxVy _ _ _ => 19
  | .ldI _ => 20
  | .jpV0 _ => 21
  | .rnd _ _ => 22
  | .drw _ _ _ => 23
  | .skp _ => 24
  | .sknp _ => 25
  | .ldVxDt _ => 26
  | .ldVxK _ => 27
  | .ldDtVx _ => 28
  | .ldStVx _ => 29
  | .addIVx _ => 30
  | .ldFVx _ => 31
  | .ldBVx _ => 32
  | .ldMemVx _ => 33
  | .ldVxMem _ => 34
  | .nop8 _ _ _ => 35
  | .nopE _ _ => 36
  | .nopF _ _ => 37

/-- The four rows whose instruction is a no-op: `SYS nnn` and the three catch-all rows (R72). -/
def Instr.isNoOp : Instr → Bool
  | .sys _ | .nop8 _ _ _ | .nopE _ _ | .nopF _ _ => true
  | .cls | .ret | .jp _ | .call _ | .seVxKk _ _ | .sneVxKk _ _ | .seVxVy _ _ _ | .ldVxKk _ _ | .addVxKk _ _
  | .ldVxVy _ _ | .orVxVy _ _ | .andVxVy _ _ | .xorVxVy _ _ | .addVxVy _ _ | .subVxVy _ _ | .shrVx _ _
  | .subnVxVy _ _ | .shlVx _ _ | .sneVxVy _ _ _ | .ldI _ | .jpV0 _ | .rnd _ _ | .drw _ _ _ | .skp _ | .sknp _
  | .ldVxDt _ | .ldVxK _ | .ldDtVx _ | .ldStVx _ | .addIVx _ | .ldFVx _ | .ldBVx _ | .ldMemVx _ | .ldVxMem _ => false

/-! ## The host's numbering of a table word -/

/-- The word whose bits the opcode table numbers `w` in an instruction of `nbits` bits: bit 0 is the least significant bit
of the one word an instruction has, and the bits at `nbits` and above are 0. -/
def tableWord (nbits w : Nat) : Word := BitVec.ofNat 16 (w % 2 ^ nbits)

/-- What the decoder reads from the instruction whose bits are `w`, laid out in memory order. -/
def decodeTableWord (nbits w : Nat) : Option Instr :=
  match decodeBytes (bytesOfWord (tableWord nbits w)) with
  | .ok (i, _) => some i
  | .error _ => none

end Sys2Proof
end

