-- ==== Sys2Proof/Config.lean ====
section
/-! DEFINITION. The parameters of 00_scope.md R8 that are plain numbers, the two OPEN parameters that the model takes as an
argument, and the model's two free values. What a test could show wrong (the default of FONT_DATA, FONT_BASE, BLOCK_ADVANCE)
is in Machine/Memory.lean and Machine/Operands.lean. -/

namespace Sys2Proof

/-- `MEM_SIZE`: 4096 bytes, addresses 0 to 4095 (20_memory.md R40). -/
abbrev Config.memSize : Nat := 4096

/-- `PROG_BASE`: the load offset and the reset value of `pc` (10_state.md R13, R34). -/
abbrev Config.progBase : Nat := 0x200

/-- `MAX_PROG`: the largest program image, 4096 - 512 bytes (00_scope.md R8, 40_cycle_driver.md R92). -/
abbrev Config.maxProg : Nat := 3584

/-- The default of the OPEN parameter `CYCLES_PER_FRAME` (40_cycle_driver.md R88; log entry 9). -/
abbrev Config.cyclesPerFrame : Nat := 9

/-- The OPEN parameters that have a default, as the argument that the host's transactions take (00_scope.md R8; log entries 4
and 9). The other two, `RAND` and `KEYWAIT_MULTI`, are the free values below. -/
structure Params where
  /-- `FONT_DATA`, the 80 font bytes (20_memory.md R43). -/
  font : Vector Byte 80
  /-- `CYCLES_PER_FRAME` (40_cycle_driver.md R88). -/
  cyclesPerFrame : Nat
  deriving DecidableEq, Repr

/-- `RAND`: the byte that draw number `n` of the random source gives. It has no body: any 8-bit value, under no law
(45_random_draw.md R150). DESIGN CHOICE (the form, not a value), safe for one run: log entry 1. -/
opaque Config.rand8 : Nat → Byte

/-- `KEYWAIT_MULTI`: the byte a key-wait stores when several input bits changed, as draw number `n`, for the two masks it
saw (46_keys_timers.md R163). It has no body: any 8-bit value. DESIGN CHOICE (the form, not a value), safe for one run:
log entry 2. -/
opaque Config.keyWaitMulti : Nat → Word → Word → Byte

end Sys2Proof
end

