-- ==== Sys2Proof/Machine/Flags.lean ====
section
/-! DEFINITION. Every flag the machine computes: the carry, the two borrows and the two shifted-out bits of
43_load_alu.md R126 to R131. The collision flag comes out of the drawing itself (Machine/Ops.lean). A flag is 0 or 1 in
`VF`, and the borrow flag is 1 when a borrow occurred (10_state.md R11, R23). -/

namespace Sys2Proof.Machine

/-- A flag as the byte written to `VF`: exactly 0 or 1 (10_state.md R11). -/
def flagByte (f : Bool) : Byte := if f then 1#8 else 0#8

/-- The carry of a sum: it passes 255 (43_load_alu.md R126, R131). -/
def carryFlag (a b : Byte) : Bool := decide (a.toNat + b.toNat > 255)

/-- The borrow of `minuend - subtrahend`: the minuend is smaller (43_load_alu.md R127, R129, R131). -/
def borrowFlag (minuend subtrahend : Byte) : Bool := decide (minuend.toNat < subtrahend.toNat)

/-- The bit a right shift by one moves out: bit 0 (43_load_alu.md R128). -/
def shiftRightFlag (a : Byte) : Bool := a.getLsbD 0

/-- The bit a left shift by one moves out: bit 7 (43_load_alu.md R130). -/
def shiftLeftFlag (a : Byte) : Bool := a.getLsbD 7

end Sys2Proof.Machine
end

