-- ==== Sys2Proof/Machine/Memory.lean ====
section
/-! DEFINITION. The memory: 4096 bytes, addresses 0 to 4095 (20_memory.md R40), held as the list of the bytes that differ
from the reset contents, in one canonical form (log entry 16). -/

namespace Sys2Proof.Machine

/-- The default of the OPEN parameter `FONT_DATA`, the 80 font bytes, glyph after glyph, five rows each: the table of
20_memory.md R43. A machine with another font is `State.resetWith` (Machine/Transactions.lean).
PRESUMED (the spec takes it from general knowledge), unsafe for a claim about the pixels of a glyph: log entry 4. -/
def fontData : List Byte :=
  [0xF0#8, 0x90#8, 0x90#8, 0x90#8, 0xF0#8] ++
  [0x20#8, 0x60#8, 0x20#8, 0x20#8, 0x70#8] ++
  [0xF0#8, 0x10#8, 0xF0#8, 0x80#8, 0xF0#8] ++
  [0xF0#8, 0x10#8, 0xF0#8, 0x10#8, 0xF0#8] ++
  [0x90#8, 0x90#8, 0xF0#8, 0x10#8, 0x10#8] ++
  [0xF0#8, 0x80#8, 0xF0#8, 0x10#8, 0xF0#8] ++
  [0xF0#8, 0x80#8, 0xF0#8, 0x90#8, 0xF0#8] ++
  [0xF0#8, 0x10#8, 0x20#8, 0x40#8, 0x40#8] ++
  [0xF0#8, 0x90#8, 0xF0#8, 0x90#8, 0xF0#8] ++
  [0xF0#8, 0x90#8, 0xF0#8, 0x10#8, 0xF0#8] ++
  [0xF0#8, 0x90#8, 0xF0#8, 0x90#8, 0x90#8] ++
  [0xE0#8, 0x90#8, 0xE0#8, 0x90#8, 0xE0#8] ++
  [0xF0#8, 0x80#8, 0x80#8, 0x80#8, 0xF0#8] ++
  [0xE0#8, 0x90#8, 0x90#8, 0x90#8, 0xE0#8] ++
  [0xF0#8, 0x80#8, 0xF0#8, 0x80#8, 0xF0#8] ++
  [0xF0#8, 0x80#8, 0xF0#8, 0x80#8, 0x80#8]

/-- `FONT_BASE`: the address of glyph 0 (00_scope.md R8, 44_index_memory.md R142). -/
def fontBase : Nat := 0x000

/-- `GLYPH_BYTES`: the bytes of one glyph (00_scope.md R8). -/
def glyphBytes : Nat := 5

/-- The byte a memory holds at an address its list does not name: the reset contents with the default font, which stands at
`fontBase`, and zero everywhere else (10_state.md R34, 20_memory.md R41). It only says against what a memory is listed: a
memory with another font lists the bytes that differ (log entry 16). -/
def unlisted (a : Nat) : Byte := if a < fontBase then 0#8 else fontData.getD (a - fontBase) 0#8

/-- A memory: address and byte pairs, addresses strictly rising, each byte different from the reset contents. -/
abbrev Memory := List Host.Cell

/-- The byte at an address (20_memory.md R44, for an address that exists). -/
def Memory.read : Memory → Nat → Byte
  | [], a => unlisted a
  | (k, b) :: m, a => if a = k then b else Memory.read m a

/-- The memory with one byte stored (20_memory.md R44, for an address that exists). Storing the reset contents takes the
address off the list, so that equal memories are equal lists. -/
def Memory.write : Memory → Nat → Byte → Memory
  | [], a, v => if v = unlisted a then [] else [(a, v)]
  | (k, b) :: m, a, v =>
    if a < k then (if v = unlisted a then (k, b) :: m else (a, v) :: (k, b) :: m)
    else if a = k then (if v = unlisted a then m else (a, v) :: m)
    else (k, b) :: Memory.write m a v

/-- The canonical form from an address up: every listed address is at least `lo`, below 4096 and below the ones after it,
and no listed byte is the reset contents of its address. -/
def Memory.wfFrom : Nat → Memory → Bool
  | _, [] => true
  | lo, (k, b) :: m => decide (lo ≤ k) && decide (k < Config.memSize) && (b != unlisted k) && Memory.wfFrom (k + 1) m

/-- The canonical form of a memory. -/
def Memory.wf (m : Memory) : Bool := Memory.wfFrom 0 m

/-- Does every one of the `n` addresses from `base` up exist (20_memory.md R44, R58)? `base + n` is computed without
wrap-around, and no address is touched when `n = 0`. -/
def rangeOk (base n : Nat) : Bool := n == 0 || decide (base + n ≤ Config.memSize)

/-- The `n` bytes from `base` up. -/
def Memory.readList (m : Memory) : Nat → Nat → List Byte
  | _, 0 => []
  | base, n + 1 => m.read base :: m.readList (base + 1) n

/-- The memory with a list of bytes stored from `base` up, in ascending address order (20_memory.md R46). -/
def Memory.writeList : Memory → Nat → List Byte → Memory
  | m, _, [] => m
  | m, base, b :: bs => (m.write base b).writeList (base + 1) bs

/-- `MemRead` of a whole range: nothing when any address of it is above 4095 (20_memory.md R44). -/
def Memory.readRange (m : Memory) (base n : Nat) : Option (List Byte) :=
  if rangeOk base n then some (m.readList base n) else none

/-- `MemWrite` of a whole range: nothing when any address of it is above 4095 (20_memory.md R44). -/
def Memory.writeRange (m : Memory) (base : Nat) (bytes : List Byte) : Option Memory :=
  if rangeOk base bytes.length then some (m.writeList base bytes) else none

end Sys2Proof.Machine
end

