-- ==== Sys2Proof/Machine/Operands.lean ====
section
/-! DEFINITION. What instructions compute from their operands: addresses, digits, key numbers and pixel numbers. Every field
is unsigned and every address is formed without wrap-around (30_encoding.md R74; 20_memory.md R58). -/

namespace Sys2Proof.Machine

/-- `zext_16(nnn)`: a 12-bit address as it goes into `pc` or `I` (30_encoding.md R74). -/
def zextAddr (nnn : Addr12) : Word := nnn.setWidth 16

/-- `zext_16(v)`: a byte as it is added to a 16-bit register (00_scope.md R9). -/
def zextByte (b : Byte) : Word := b.setWidth 16

/-- `BLOCK_ADVANCE(x) = x + 2`: how far a block transfer of `V[0]` to `V[x]` moves `I` (00_scope.md R8,
44_index_memory.md R144, R145; log entry 19). -/
def blockAdvance (x : Reg) : Word := x.setWidth 16 + 2#16

/-- The address of the glyph of a digit, `FONT_BASE + 5 * digit`, on the whole byte (44_index_memory.md R142). -/
def glyphAddress (digit : Byte) : Word := BitVec.ofNat 16 (fontBase + glyphBytes * digit.toNat)

/-- The three decimal digits of a byte, hundreds first (44_index_memory.md R143). -/
def decimalDigits (b : Byte) : List Byte := [b / 100#8, (b / 10#8) % 10#8, b % 10#8]

/-- `held(k) = (k ≤ 15) and (input_mask[k] = 1)` (46_keys_timers.md R166). -/
def keyHeld (inputMask : Word) (key : Byte) : Bool := decide (key.toNat ≤ 15) && inputMask.getLsbD key.toNat

/-- What a key-wait sees when it compares the two masks (46_keys_timers.md R163). -/
inductive KeyChange where
  /-- No bit differs: the wait goes on. -/
  | unchanged
  /-- Exactly one bit differs, bit `k`. -/
  | single (k : Byte)
  /-- Several bits differ: the stored value is open. -/
  | several
  deriving DecidableEq, Repr

/-- The comparison of the two masks: `diff = input_mask XOR prev_mask`, none, one or several bits of it set
(46_keys_timers.md R163). -/
def keyChange (inputMask prevMask : Word) : KeyChange :=
  let diff := inputMask ^^^ prevMask
  if diff = 0#16 then .unchanged
  else match (List.range 16).find? (fun k => diff == BitVec.twoPow 16 k) with
    | some k => .single (BitVec.ofNat 8 k)
    | none => .several

/-- The number of the pixel hit by bit `b` (0 leftmost) of row `r` of a sprite drawn at column `sx`, row `sy`
(45_random_draw.md R152). -/
def pixelIndex (sx sy r b : Nat) : Nat := ((sy + r) * 64 + (sx + b) % 64) % 2048

/-- The pixels hit by the 1 bits of one sprite row, most significant bit first (45_random_draw.md R153). -/
def rowPixels (sx sy r : Nat) (row : Byte) : List Nat :=
  ([0, 1, 2, 3, 4, 5, 6, 7].filter (fun b => row.getLsbD (7 - b))).map (pixelIndex sx sy r)

/-- The pixels hit by the 1 bits of a sprite whose first row is row number `r`, row after row (45_random_draw.md R153). -/
def spritePixels (sx sy : Nat) : Nat → List Byte → List Nat
  | _, [] => []
  | r, row :: rows => rowPixels sx sy r row ++ spritePixels sx sy (r + 1) rows

end Sys2Proof.Machine
end

