-- ==== Sys2Proof/Machine/State.lean ====
section
/-! DEFINITION. The state of the chip8-rs CORE (10_state.md R10 to R34), the reasons a step of the model can stop, and the
state after reset. -/

namespace Sys2Proof.Machine

/-- The values of the fault latch (10_state.md R22, 60_exceptions.md R171). -/
inductive FaultCode where
  /-- Code 0: no fault; the machine runs. -/
  | noFault
  /-- Code 1: a call with 16 live stack entries (60_exceptions.md R174). -/
  | stackOverflow
  /-- Code 2: a return with no live stack entry (R175). -/
  | stackUnderflow
  /-- Code 3: a fetch with `pc > 4094` (R176). -/
  | fetchRange
  /-- Code 4: a data access above address 4095 (R177). -/
  | dataRange
  deriving DecidableEq, Repr

/-- Why a step of the model stops with a fault. It has no constructor: the spec describes what each of its four faults
does in full (60_exceptions.md R172: the latch is set, everything else keeps its value, and 40_cycle_driver.md R89: a
halted step changes nothing), so each is a next state, and nothing raises a stop. Safe: log entry 5. -/
inductive Fault where
  deriving DecidableEq, Repr

/-- Why a step of the model is refused. -/
inductive Refusal where
  /-- The instruction has no meaning in the model yet. Raised only by arms of `exec` without a meaning; no arm is left
  without one, so nothing raises it. Safe. -/
  | notModelled (mnemonic : String)
  deriving DecidableEq, Repr

/-- The 32 rows of the display, row 0 at the top; bit `c` of a row is the pixel of column `c`, column 0 at the left, 1 for
lit (10_state.md R18; DESIGN CHOICE of form, safe: log entry 11). -/
abbrev Display := Vector (BitVec 64) 32

/-- The machine state: the spec's pieces of state (10_state.md section 1) and, last, one field of the model's own. -/
structure State where
  /-- `V[0]` to `V[15]` (R10). -/
  v : Vector Byte 16
  /-- `I`, the index register (R12). -/
  i : Word
  /-- `pc`, the program counter (R13). -/
  pc : Word
  /-- `stack[0]` to `stack[15]` (R14). -/
  stack : Vector Word 16
  /-- `SP`, the number of live stack entries, 0 to 16 (R15, R26; form: log entry 12). -/
  sp : Fin 17
  /-- `mem[0]` to `mem[4095]` (R16). -/
  mem : Memory
  /-- `DT`, the delay timer (R17). -/
  dt : Byte
  /-- `ST`, the sound timer (R17). -/
  st : Byte
  /-- `disp[0]` to `disp[2047]` (R18). -/
  disp : Display
  /-- `input_mask`: bit `k` is set when key `k` is held (R20). -/
  inputMask : Word
  /-- `prev_mask`: `input_mask` as of the end of the previous cycle (R21). -/
  prevMask : Word
  /-- `fault`, the fault latch (R22). -/
  fault : FaultCode
  /-- The model's own field: how many free values have been drawn; it names the next one (log entries 1, 2 and 3). -/
  draws : Nat
  deriving DecidableEq, Repr

/-- The state after reset, with the default `FONT_DATA`: everything zero but the font and `pc` (10_state.md R34,
70_reset_and_hazards.md R200; log entry 4). The memory lists nothing, since an unlisted address reads as these contents. `draws := 0` is the model's own (DESIGN CHOICE, log
entry 3). -/
def State.reset : State :=
  { v := Vector.replicate 16 0#8
    i := 0x0000#16
    pc := 0x0200#16
    stack := Vector.replicate 16 0x0000#16
    sp := 0
    mem := []
    dt := 0x00#8
    st := 0x00#8
    disp := Vector.replicate 32 0#64
    inputMask := 0x0000#16
    prevMask := 0x0000#16
    fault := .noFault
    draws := 0 }

end Sys2Proof.Machine
end

