-- ==== Sys2Proof/Machine/Ops.lean ====
section
/-! DEFINITION. The named operations of the machine over registers, stack, memory and display, and fault entry. Every
meaning is written with them (10_state.md, 60_exceptions.md R172). -/

namespace Sys2Proof.Machine

/-! ## Registers -/

/-- `V[x]` (10_state.md R10). -/
def State.reg (s : State) (x : Reg) : Byte := s.v[x.toNat]'x.isLt

/-- `V[x] <- b` (10_state.md R10). -/
def State.setReg (s : State) (x : Reg) (b : Byte) : State := { s with v := s.v.set x.toNat b x.isLt }

/-- `VF <- flag` (10_state.md R11). -/
def State.setFlag (s : State) (f : Bool) : State := s.setReg VF (flagByte f)

/-- `V[x] <- result`, then `VF <- flag`: the write order of group 8 (43_load_alu.md R132). -/
def State.setRegFlag (s : State) (x : Reg) (b : Byte) (f : Bool) : State := (s.setReg x b).setFlag f

/-- `I <- w` (10_state.md R12). -/
def State.setI (s : State) (w : Word) : State := { s with i := w }

/-- `pc <- target` (10_state.md R13). -/
def State.setPc (s : State) (target : Word) : State := { s with pc := target }

/-- `DT <- b` (10_state.md R17). -/
def State.setDt (s : State) (b : Byte) : State := { s with dt := b }

/-- `ST <- b` (10_state.md R17). -/
def State.setSt (s : State) (b : Byte) : State := { s with st := b }

/-- The state with another memory. -/
def State.setMem (s : State) (m : Memory) : State := { s with mem := m }

/-- The state with another display. -/
def State.setDisp (s : State) (d : Display) : State := { s with disp := d }

/-- The registers `V[0]` to `V[x]`, in order (44_index_memory.md R144). -/
def State.regsUpTo (s : State) (x : Reg) : List Byte :=
  (List.range (x.toNat + 1)).map (fun k => s.reg (BitVec.ofNat 4 k))

/-- Bytes into consecutive registers from register `k` up (44_index_memory.md R145). -/
def State.setRegsFrom : State → Nat → List Byte → State
  | s, _, [] => s
  | s, k, b :: bs => (s.setReg (BitVec.ofNat 4 k) b).setRegsFrom (k + 1) bs

/-! ## Free values (log entries 1, 2 and 3) -/

/-- One more free value has been drawn. -/
def State.countDraw (s : State) : State := { s with draws := s.draws + 1 }

/-- `V[x] <- b` where `b` came from a free value: the register is written and the draw is counted. -/
def State.setRegDrawn (s : State) (x : Reg) (b : Byte) : State := (s.setReg x b).countDraw

/-! ## The return stack (10_state.md R14, R15) -/

/-- Push: write `stack[SP]`, then add 1 to `SP`; nothing when all 16 entries are live (41_flow.md R103). -/
def State.push (s : State) (ret : Word) : Option State :=
  if h : s.sp.val < 16 then
    some { s with stack := s.stack.set s.sp.val ret h, sp := ⟨s.sp.val + 1, by omega⟩ }
  else none

/-- Pop: subtract 1 from `SP`, then read `stack[SP]`, which keeps its value; nothing when no entry is live
(41_flow.md R101). -/
def State.pop (s : State) : Option (Word × State) :=
  if h : 0 < s.sp.val then
    some (s.stack[s.sp.val - 1]'(by omega), { s with sp := ⟨s.sp.val - 1, by omega⟩ })
  else none

/-! ## The display (10_state.md R18, 45_random_draw.md) -/

/-- `disp[p]`: pixel `p = row * 64 + column`; no pixel above 2047 is lit. -/
def Display.pixel (d : Display) (p : Nat) : Bool := (d[p / 64]?.getD 0#64).getLsbD (p % 64)

/-- `disp[p] <- disp[p] XOR 1`. -/
def Display.toggle (d : Display) (p : Nat) : Display :=
  d.setIfInBounds (p / 64) (d[p / 64]?.getD 0#64 ^^^ BitVec.twoPow 64 (p % 64))

/-- Every pixel dark (41_flow.md R100). -/
def Display.dark : Display := Vector.replicate 32 0#64

/-- Draw a list of pixels: each is tested for a collision and then toggled, and the collision flag stays true once it is
(45_random_draw.md R153). -/
def Display.draw : Display → List Nat → Display × Bool
  | d, [] => (d, false)
  | d, p :: ps =>
    let rest := Display.draw (d.toggle p) ps
    (rest.1, d.pixel p || rest.2)

/-! ## Fault entry (60_exceptions.md R171 to R173, R179)

There is no return beside it: the machine has no return-from-trap instruction, nothing a program does clears the latch, and
only the host's `Reset` does (R179). -/

/-- Fault entry from the state at the start of the cycle: the latch takes the cause, and everything else keeps its value
(60_exceptions.md R172). No register saves anything and control goes nowhere. -/
def State.enterFault (start : State) (c : FaultCode) : State := { start with fault := c }

/-- `raise <Fault>` inside a handler. A handler raises before it changes anything (R173), so the state it sees is the one
at the start of the cycle with `pc` advanced by 2; fault entry takes that advance back (R172; log entry 6). -/
def State.raise (s : State) (c : FaultCode) : Host.Outcome State Fault Refusal :=
  .next ((s.setPc (s.pc - 2#16)).enterFault c)

/-- The information value of the fault a state is halted with (60_exceptions.md R171): fault entry keeps `pc` and `I`, so
it is the value of `pc` for a fetch fault, and the lowest address above 4095, `max(I, 4096)`, for a data fault
(44_index_memory.md R143 to R145, 45_random_draw.md R153). It is not state (R171; log entry 7). -/
def State.faultInfo (s : State) : Option Nat :=
  match s.fault with
  | .fetchRange => some s.pc.toNat
  | .dataRange => some (max s.i.toNat Config.memSize)
  | .noFault | .stackOverflow | .stackUnderflow => none

/-- The code of a fault cause (10_state.md R22). -/
def FaultCode.code : FaultCode → BitVec 3
  | .noFault => 0#3
  | .stackOverflow => 1#3
  | .stackUnderflow => 2#3
  | .fetchRange => 3#3
  | .dataRange => 4#3

/-! ## Control -/

/-- The skip common to the six skip instructions: `pc <- pc + 2` when the condition holds (42_skips.md R114). -/
def State.skipIf (s : State) (c : Bool) : State := if c then s.setPc (s.pc + 2#16) else s

end Sys2Proof.Machine
end

