-- ==== Sys2Proof/Machine/Cycle.lean ====
section
/-! DEFINITION. The parts of a cycle around the handler: fetch, advance and tail (40_cycle_driver.md R80 to R87). -/

namespace Sys2Proof.Machine

/-- The fetch of a cycle, or the peek after it: the word at `pc`, big-endian, nothing when `pc > 4094`
(40_cycle_driver.md R81, R87; 20_memory.md R45, R46). Any parity of `pc` will do (20_memory.md R47). -/
def State.fetchWord (s : State) : Option Word :=
  if s.pc.toNat ≤ 4094 then some (wordOfBytes (s.mem.read s.pc.toNat) (s.mem.read (s.pc.toNat + 1))) else none

/-- `pc <- pc + 2`, after the fetch and before the handler (40_cycle_driver.md R82). -/
def State.advance (s : State) : State := s.setPc (s.pc + 2#16)

/-- A timer after its decrement: one less while above zero (40_cycle_driver.md R85). -/
def tick (t : Byte) : Byte := if t.toNat > 0 then t - 1#8 else t

/-- The tail of a cycle that does not fault: both timers decrement, then `prev_mask <- input_mask`
(40_cycle_driver.md R85, R86). -/
def State.tail (s : State) : State := { s with dt := tick s.dt, st := tick s.st, prevMask := s.inputMask }

/-- The end of a cycle after its handler: the tail, unless the handler raised a fault (40_cycle_driver.md R80). -/
def State.finish (s : State) : State := if s.fault = .noFault then s.tail else s

/-- The end of a cycle, given how its handler ended. -/
def finishOutcome : Host.Outcome State Fault Refusal → Host.Outcome State Fault Refusal
  | .next t => .next t.finish
  | .fault r => .fault r
  | .refused r => .refused r

end Sys2Proof.Machine
end

