-- ==== Sys2Proof/Machine/Flow.lean ====
section
/-! DEFINITION. Group 0 and the control transfers: groups 0, 1, 2 and B (41_flow.md). A meaning is the handler of its
instruction: the state it takes has `pc` already advanced by 2 (40_cycle_driver.md R82). -/

namespace Sys2Proof.Machine

/-- `CLS` (41_flow.md R100). -/
def execCls (s : State) : Host.Outcome State Fault Refusal := .next (s.setDisp Display.dark)

/-- `RET` (R101); STACK_UNDERFLOW when no entry is live (60_exceptions.md R175). -/
def execRet (s : State) : Host.Outcome State Fault Refusal :=
  match s.pop with
  | none => s.raise .stackUnderflow
  | some (target, t) => .next (t.setPc target)

/-- `SYS nnn`: nothing (R105). -/
def execSys (s : State) : Host.Outcome State Fault Refusal := .next s

/-- `JP nnn` (R102). -/
def execJp (nnn : Addr12) (s : State) : Host.Outcome State Fault Refusal := .next (s.setPc (zextAddr nnn))

/-- `CALL nnn` (R103): `pc` already holds the address after the call; STACK_OVERFLOW when all 16 entries are live
(60_exceptions.md R174). -/
def execCall (nnn : Addr12) (s : State) : Host.Outcome State Fault Refusal :=
  match s.push s.pc with
  | none => s.raise .stackOverflow
  | some t => .next (t.setPc (zextAddr nnn))

/-- `JP V0, nnn` (R104): the sum is formed in 16 bits and not reduced. -/
def execJpV0 (nnn : Addr12) (s : State) : Host.Outcome State Fault Refusal :=
  .next (s.setPc (zextAddr nnn + zextByte (s.reg V0)))

end Sys2Proof.Machine
end

