-- ==== Sys2Proof/Machine/IndexMemory.lean ====
section
/-! DEFINITION. The index register and the memory instructions (44_index_memory.md). The one addressing mode is `I + k`
without wrap-around, and the whole range is checked before anything changes (R146). -/

namespace Sys2Proof.Machine

/-- `LD I, nnn` (44_index_memory.md R140). -/
def execLdI (nnn : Addr12) (s : State) : Host.Outcome State Fault Refusal := .next (s.setI (zextAddr nnn))

/-- `ADD I, Vx`: wraps at 16 bits, no flag (R141). -/
def execAddIVx (x : Reg) (s : State) : Host.Outcome State Fault Refusal :=
  .next (s.setI (s.i + zextByte (s.reg x)))

/-- `LD F, Vx`: the address of the glyph of the whole byte `Vx` (R142). -/
def execLdFVx (x : Reg) (s : State) : Host.Outcome State Fault Refusal :=
  .next (s.setI (glyphAddress (s.reg x)))

/-- `LD B, Vx`: the three decimal digits at `I`, `I + 1`, `I + 2` (R143). -/
def execLdBVx (x : Reg) (s : State) : Host.Outcome State Fault Refusal :=
  match s.mem.writeRange s.i.toNat (decimalDigits (s.reg x)) with
  | none => s.raise .dataRange
  | some m => .next (s.setMem m)

/-- `LD [I], Vx`: `V[0]` to `V[x]` to memory, then `I` advances by the count plus one (R144). -/
def execLdMemVx (x : Reg) (s : State) : Host.Outcome State Fault Refusal :=
  match s.mem.writeRange s.i.toNat (s.regsUpTo x) with
  | none => s.raise .dataRange
  | some m => .next ((s.setMem m).setI (s.i + blockAdvance x))

/-- `LD Vx, [I]`: memory to `V[0]` to `V[x]`, then `I` advances by the count plus one (R145). -/
def execLdVxMem (x : Reg) (s : State) : Host.Outcome State Fault Refusal :=
  match s.mem.readRange s.i.toNat (x.toNat + 1) with
  | none => s.raise .dataRange
  | some bytes => .next ((s.setRegsFrom 0 bytes).setI (s.i + blockAdvance x))

end Sys2Proof.Machine
end

