-- ==== Sys2Proof/Machine/KeysTimers.lean ====
section
/-! DEFINITION. Key tests, key-wait and timer access: group E and Fx07, Fx0A, Fx15, Fx18 (46_keys_timers.md), and the
unrecognised sub-codes of groups E and F. -/

namespace Sys2Proof.Machine

/-- `SKP Vx`: skip when the key is held (46_keys_timers.md R160, R166). -/
def execSkp (x : Reg) (s : State) : Host.Outcome State Fault Refusal :=
  .next (s.skipIf (keyHeld s.inputMask (s.reg x)))

/-- `SKNP Vx`: skip when the key is not held (R161, R166). -/
def execSknp (x : Reg) (s : State) : Host.Outcome State Fault Refusal :=
  .next (s.skipIf (!keyHeld s.inputMask (s.reg x)))

/-- `LD Vx, DT` (R162): the value before this cycle's decrement. -/
def execLdVxDt (x : Reg) (s : State) : Host.Outcome State Fault Refusal := .next (s.setReg x s.dt)

/-- `LD Vx, K` (R163): run again while the masks are equal; store the number of the one changed key; store a free byte
when several changed (log entry 2). -/
def execLdVxK (x : Reg) (s : State) : Host.Outcome State Fault Refusal :=
  match keyChange s.inputMask s.prevMask with
  | .unchanged => .next (s.setPc (s.pc - 2#16))
  | .single k => .next (s.setReg x k)
  | .several => .next (s.setRegDrawn x (Config.keyWaitMulti s.draws s.inputMask s.prevMask))

/-- `LD DT, Vx` (R164): the tail of the same cycle then decrements it. -/
def execLdDtVx (x : Reg) (s : State) : Host.Outcome State Fault Refusal := .next (s.setDt (s.reg x))

/-- `LD ST, Vx` (R165): the tail of the same cycle then decrements it. -/
def execLdStVx (x : Reg) (s : State) : Host.Outcome State Fault Refusal := .next (s.setSt (s.reg x))

/-- A group-E word with an unrecognised low byte: nothing (30_encoding.md R70, R72). -/
def execNopE (s : State) : Host.Outcome State Fault Refusal := .next s

/-- A group-F word with an unrecognised low byte: nothing (30_encoding.md R71, R72). -/
def execNopF (s : State) : Host.Outcome State Fault Refusal := .next s

end Sys2Proof.Machine
end

