-- ==== Sys2Proof/Machine/LoadAlu.lean ====
section
/-! DEFINITION. Load, add and the register-to-register ALU: groups 6, 7 and 8 (43_load_alu.md). Arithmetic wraps at 8 bits
(R131); operands are read first, then the result is written, then the flag (R132). -/

namespace Sys2Proof.Machine

/-- `LD Vx, kk` (43_load_alu.md R120). -/
def execLdVxKk (x : Reg) (kk : Byte) (s : State) : Host.Outcome State Fault Refusal := .next (s.setReg x kk)

/-- `ADD Vx, kk`: no flag (R121). -/
def execAddVxKk (x : Reg) (kk : Byte) (s : State) : Host.Outcome State Fault Refusal :=
  .next (s.setReg x (s.reg x + kk))

/-- `LD Vx, Vy` (R122). -/
def execLdVxVy (x y : Reg) (s : State) : Host.Outcome State Fault Refusal := .next (s.setReg x (s.reg y))

/-- `OR Vx, Vy`: no flag (R123). -/
def execOrVxVy (x y : Reg) (s : State) : Host.Outcome State Fault Refusal :=
  .next (s.setReg x (s.reg x ||| s.reg y))

/-- `AND Vx, Vy`: no flag (R124). -/
def execAndVxVy (x y : Reg) (s : State) : Host.Outcome State Fault Refusal :=
  .next (s.setReg x (s.reg x &&& s.reg y))

/-- `XOR Vx, Vy`: no flag (R125). -/
def execXorVxVy (x y : Reg) (s : State) : Host.Outcome State Fault Refusal :=
  .next (s.setReg x (s.reg x ^^^ s.reg y))

/-- `ADD Vx, Vy`: `VF` is the carry (R126). -/
def execAddVxVy (x y : Reg) (s : State) : Host.Outcome State Fault Refusal :=
  .next (s.setRegFlag x (s.reg x + s.reg y) (carryFlag (s.reg x) (s.reg y)))

/-- `SUB Vx, Vy`: `VF` is the borrow of `Vx - Vy` (R127). -/
def execSubVxVy (x y : Reg) (s : State) : Host.Outcome State Fault Refusal :=
  .next (s.setRegFlag x (s.reg x - s.reg y) (borrowFlag (s.reg x) (s.reg y)))

/-- `SHR Vx`: in place, `VF` is the old bit 0; `Vy` plays no part (R128). -/
def execShrVx (x : Reg) (s : State) : Host.Outcome State Fault Refusal :=
  .next (s.setRegFlag x (s.reg x >>> 1) (shiftRightFlag (s.reg x)))

/-- `SUBN Vx, Vy`: `VF` is the borrow of `Vy - Vx` (R129). -/
def execSubnVxVy (x y : Reg) (s : State) : Host.Outcome State Fault Refusal :=
  .next (s.setRegFlag x (s.reg y - s.reg x) (borrowFlag (s.reg y) (s.reg x)))

/-- `SHL Vx`: in place, `VF` is the old bit 7; `Vy` plays no part (R130). -/
def execShlVx (x : Reg) (s : State) : Host.Outcome State Fault Refusal :=
  .next (s.setRegFlag x (s.reg x <<< 1) (shiftLeftFlag (s.reg x)))

/-- A group-8 word with an unrecognised low nibble: nothing (30_encoding.md R69, R72). -/
def execNop8 (s : State) : Host.Outcome State Fault Refusal := .next s

end Sys2Proof.Machine
end

