-- ==== Sys2Proof/Machine/RandomDraw.lean ====
section
/-! DEFINITION. Masked random and the sprite compositer: groups C and D (45_random_draw.md). -/

namespace Sys2Proof.Machine

/-- `RND Vx, kk`: a fresh free byte AND the mask (45_random_draw.md R150, R151; log entry 1). -/
def execRnd (x : Reg) (kk : Byte) (s : State) : Host.Outcome State Fault Refusal :=
  .next (s.setRegDrawn x (Config.rand8 s.draws &&& kk))

/-- `DRW Vx, Vy, n` (R153): the coordinates are read before `VF` is written, the source range is checked first, and
`VF` takes the collision flag on every execution. -/
def execDrw (x y : Reg) (n : Nibble) (s : State) : Host.Outcome State Fault Refusal :=
  match s.mem.readRange s.i.toNat n.toNat with
  | none => s.raise .dataRange
  | some rows =>
    let drawn := s.disp.draw (spritePixels (s.reg x).toNat (s.reg y).toNat 0 rows)
    .next ((s.setDisp drawn.1).setFlag drawn.2)

end Sys2Proof.Machine
end

