-- ==== Sys2Proof/Machine/Step.lean ====
section
/-! DEFINITION. One step of the machine: one cycle of 40_cycle_driver.md R80. -/

namespace Sys2Proof.Machine

/-- `Step` (40_cycle_driver.md R80): a halted machine does nothing (R89); otherwise fetch, or FETCH_RANGE (R81), advance,
decode and handler, and the tail unless the handler raised a fault. -/
def step (s : State) : Host.Outcome State Fault Refusal :=
  if s.fault = .noFault then
    match s.fetchWord with
    | none => .next (s.enterFault .fetchRange)
    | some w => finishOutcome (exec (decodeWord w) s.advance)
  else .next s

/-- The state with the instruction whose bits the opcode table numbers `w` stored where `step` fetches next: its two bytes
in memory order at `pc`. Nothing else changes. A state with `pc > 4094` fetches nowhere, and is left as it is; a halted state
runs nothing (log entry 10). -/
def State.withFetchWord (s : State) (nbits w : Nat) : State :=
  match s.mem.writeRange s.pc.toNat (bytesOfWord (tableWord nbits w)) with
  | some m => s.setMem m
  | none => s

end Sys2Proof.Machine
end

