-- ==== Sys2Proof/Machine/Transactions.lean ====
section
/-! DEFINITION. The six transactions by which the host reaches the core (40_cycle_driver.md R90 to R96), with their results.
They happen between cycles only, one after another (R90, R95). The debug view of R96 is reading the fields of `State`. -/

namespace Sys2Proof.Machine

/-- The cause and the information value that a faulting step reports to the host (60_exceptions.md R171, R172). -/
structure FaultReport where
  cause : FaultCode
  info  : Option Nat
  deriving DecidableEq, Repr

/-- What a host transaction answers. -/
inductive Reply where
  /-- The transaction is done and answers nothing more (`Reset`, `LoadProgram`, `SetKey`). -/
  | done
  /-- `LOAD_TOO_LARGE`: the image has more than 3584 bytes; nothing changed (40_cycle_driver.md R92). -/
  | loadTooLarge
  /-- `SetKey` with an index above 15, outside the interface; nothing changed (R93). -/
  | keyRefused
  /-- The result of `Step` or `Frame`: `running`, and the report of the step that faulted, if one did (R87, R88, R172). -/
  | ran (running : Bool) (report : Option FaultReport)
  /-- The framebuffer view (R94). -/
  | pixels (bytes : List Byte)
  deriving DecidableEq, Repr

/-! ## Step and Frame -/

/-- The peek at the end of a cycle: is there a next word, and is it not 0x0000 (40_cycle_driver.md R87)? -/
def State.nextWordNonZero (s : State) : Bool :=
  match s.fetchWord with
  | some w => w != 0x0000#16
  | none => false

/-- The result `running` of a step that led from `s` to `t`: false for a halted or faulting step, otherwise the peek
(40_cycle_driver.md R87, R89; 60_exceptions.md R172). -/
def stepRunning (s t : State) : Bool := s.fault == .noFault && t.fault == .noFault && t.nextWordNonZero

/-- The report of a step that led from `s` to `t`: it faulted when the latch was clear before and is set after
(60_exceptions.md R172). -/
def stepReport (s t : State) : Option FaultReport :=
  if s.fault = .noFault ∧ t.fault ≠ .noFault then some { cause := t.fault, info := t.faultInfo } else none

/-- `Step` with its result. -/
def hostStep (s : State) : Host.Outcome (State × Reply) Fault Refusal :=
  match step s with
  | .next t => .next (t, .ran (stepRunning s t) (stepReport s t))
  | .fault r => .fault r
  | .refused r => .refused r

/-- `n` consecutive steps with the OR of their `running` results and the report of the step that faulted, if one did. All
`n` steps are requested; after a fault the rest do nothing (40_cycle_driver.md R88). At most one step reports a fault
(60_exceptions.md R179). -/
def frameRun : Nat → State → Host.Outcome (State × Bool × Option FaultReport) Fault Refusal
  | 0, s => .next (s, false, none)
  | n + 1, s =>
    match step s with
    | .next t =>
      match frameRun n t with
      | .next (u, running, report) => .next (u, stepRunning s t || running, stepReport s t <|> report)
      | .fault r => .fault r
      | .refused r => .refused r
    | .fault r => .fault r
    | .refused r => .refused r

/-- `Frame` of `n` steps with its result (40_cycle_driver.md R88). -/
def hostFrame (n : Nat) (s : State) : Host.Outcome (State × Reply) Fault Refusal :=
  match frameRun n s with
  | .next (t, running, report) => .next (t, .ran running report)
  | .fault r => .fault r
  | .refused r => .refused r

/-! ## Reset, LoadProgram, SetKey, Framebuffer -/

/-- The OPEN parameters at their defaults: the machine that `State.reset` is (00_scope.md R8; log entries 4 and 9). -/
def defaultParams : Params :=
  { font := ⟨fontData.toArray, by decide⟩, cyclesPerFrame := Config.cyclesPerFrame }

/-- The state after reset of the machine whose `FONT_DATA` is `font` (10_state.md R34, 20_memory.md R43): the font goes to
`mem` at `fontBase`, and every other piece of state is as in `State.reset`. -/
def State.resetWith (font : Vector Byte 80) : State :=
  State.reset.setMem (State.reset.mem.writeList fontBase font.toList)

/-- `Reset` (40_cycle_driver.md R91, 70_reset_and_hazards.md R200) of the machine whose `FONT_DATA` is `font`: every piece of
the spec's state takes its reset value. The model's count of free values goes on, so that a machine reset again does not draw the same values again (log entry 3). -/
def hostReset (font : Vector Byte 80) (s : State) : State := { State.resetWith font with draws := s.draws }

/-- `LoadProgram(bytes)` (40_cycle_driver.md R92): the image goes to memory from 0x200 up, or the transaction is rejected
whole. -/
def hostLoadProgram (bytes : List Byte) (s : State) : State × Reply :=
  if bytes.length ≤ Config.maxProg then (s.setMem (s.mem.writeList Config.progBase bytes), .done)
  else (s, .loadTooLarge)

/-- The mask with bit `index` set or cleared. -/
def setKeyBit (mask : Word) (index : Nat) (held : Bool) : Word :=
  if held then mask ||| BitVec.twoPow 16 index else mask &&& ~~~(BitVec.twoPow 16 index)

/-- `SetKey(index, held)` (40_cycle_driver.md R93): one bit of `input_mask`; an index above 15 is refused. -/
def hostSetKey (index : Nat) (held : Bool) (s : State) : State × Reply :=
  if index ≤ 15 then ({ s with inputMask := setKeyBit s.inputMask index held }, .done) else (s, .keyRefused)

/-- One byte of the framebuffer view: `fb[4 * p + c]` is 0xFF when pixel `p` is lit and 0x00 when it is dark
(10_state.md R19). -/
def framebufferByte (s : State) (k : Nat) : Byte := if s.disp.pixel (k / 4) then 0xFF#8 else 0x00#8

/-- `Framebuffer` (40_cycle_driver.md R94): the 8192-byte view (10_state.md R19). -/
def framebuffer (s : State) : List Byte := (List.range 8192).map (framebufferByte s)

/-! ## A session of the host -/

/-- The six transactions (40_cycle_driver.md R90). -/
inductive Transaction where
  | reset
  | loadProgram (bytes : List Byte)
  | setKey (index : Nat) (held : Bool)
  | step
  | frame
  | framebuffer
  deriving DecidableEq, Repr

/-- One transaction of the machine with the parameters `p`: the state after it and its reply. -/
def perform (p : Params) (x : Transaction) (s : State) : Host.Outcome (State × Reply) Fault Refusal :=
  match x with
  | .reset => .next (hostReset p.font s, .done)
  | .loadProgram bytes => .next (hostLoadProgram bytes s)
  | .setKey index held => .next (hostSetKey index held s)
  | .step => hostStep s
  | .frame => hostFrame p.cyclesPerFrame s
  | .framebuffer => .next (s, .pixels (framebuffer s))

/-- A session: transactions one after another (40_cycle_driver.md R90), the replies in their order. It is the model's RUN, and it
ends where the list does: of the three ends that 70_reset_and_hazards.md R215 offers the model means the first, the host stops.
DESIGN CHOICE, log entry 20: a loop `JP a` at `a` and a halted machine are states that a run passes through and stays in. -/
def session (p : Params) : List Transaction → State → Host.Outcome (State × List Reply) Fault Refusal
  | [], s => .next (s, [])
  | x :: xs, s =>
    match perform p x s with
    | .next (t, reply) =>
      match session p xs t with
      | .next (u, replies) => .next (u, reply :: replies)
      | .fault r => .fault r
      | .refused r => .refused r
    | .fault r => .fault r
    | .refused r => .refused r

end Sys2Proof.Machine
end

