-- ==== Sys2Proof/Safety.lean ====
section
/-! DEFINITION. The terms in which claims about the machine are stated: a running state, the invariant of the machine, and
what a handler leaves unchanged. -/

namespace Sys2Proof.Machine

/-- The machine runs: the fault latch is clear. A faulted state is never a good final state (60_exceptions.md R179). -/
def State.Running (s : State) : Prop := s.fault = .noFault

/-- The invariant of the machine: the memory is in its canonical form; `pc` is at most 0x10FE (10_state.md R13); and every
stack entry is an address that a call can have saved, at most 0x1000 (60_exceptions.md R176: a call is fetched at 0xFFE at
most). -/
structure State.Inv (s : State) : Prop where
  memWf : s.mem.wf = true
  pcBound : s.pc.toNat ≤ 0x10FE
  stackBound : ∀ k (h : k < 16), (s.stack[k]'h).toNat ≤ 0x1000

/-- The names of the pieces of state other than the general registers. -/
inductive Field where
  | i | pc | stack | sp | mem | dt | st | disp | inputMask | prevMask | fault | draws
  deriving DecidableEq, Repr

/-- From `s` to `t` nothing changed but the general registers `regs` and the pieces of state `fields`
(40_cycle_driver.md R84). Memory is compared byte by byte through its read. -/
def Frame (regs : List Reg) (fields : List Field) (s t : State) : Prop :=
  (∀ r : Reg, r ∉ regs → t.reg r = s.reg r) ∧
  (Field.i ∉ fields → t.i = s.i) ∧
  (Field.pc ∉ fields → t.pc = s.pc) ∧
  (Field.stack ∉ fields → t.stack = s.stack) ∧
  (Field.sp ∉ fields → t.sp = s.sp) ∧
  (Field.mem ∉ fields → ∀ a : Nat, t.mem.read a = s.mem.read a) ∧
  (Field.dt ∉ fields → t.dt = s.dt) ∧
  (Field.st ∉ fields → t.st = s.st) ∧
  (Field.disp ∉ fields → t.disp = s.disp) ∧
  (Field.inputMask ∉ fields → t.inputMask = s.inputMask) ∧
  (Field.prevMask ∉ fields → t.prevMask = s.prevMask) ∧
  (Field.fault ∉ fields → t.fault = s.fault) ∧
  (Field.draws ∉ fields → t.draws = s.draws)

/-- Every byte of memory outside the `n` bytes from `base` up reads after as it read before. -/
def SameMemOutside (base n : Nat) (s t : State) : Prop :=
  ∀ a : Nat, a < base ∨ base + n ≤ a → t.mem.read a = s.mem.read a

/-- How many data bytes an instruction touches, from `I` up (the table of 20_memory.md R48). -/
def dataBytes : Instr → Nat
  | .drw _ _ n => n.toNat
  | .ldBVx _ => 3
  | .ldMemVx x | .ldVxMem x => x.toNat + 1
  | .cls | .ret | .sys _ | .jp _ | .call _ | .seVxKk _ _ | .sneVxKk _ _ | .seVxVy _ _ _ | .ldVxKk _ _ | .addVxKk _ _
  | .ldVxVy _ _ | .orVxVy _ _ | .andVxVy _ _ | .xorVxVy _ _ | .addVxVy _ _ | .subVxVy _ _ | .shrVx _ _
  | .subnVxVy _ _ | .shlVx _ _ | .sneVxVy _ _ _ | .ldI _ | .jpV0 _ | .rnd _ _ | .skp _ | .sknp _ | .ldVxDt _
  | .ldVxK _ | .ldDtVx _ | .ldStVx _ | .addIVx _ | .ldFVx _ | .nop8 _ _ _ | .nopE _ _ | .nopF _ _ => 0

/-- Is `r` a destination register that the instruction names (10_state.md section 1, column "Written by")? -/
def namesDest : Instr → Reg → Bool
  | .ldVxKk x _, r | .addVxKk x _, r | .ldVxVy x _, r | .orVxVy x _, r | .andVxVy x _, r | .xorVxVy x _, r
  | .addVxVy x _, r | .subVxVy x _, r | .shrVx x _, r | .subnVxVy x _, r | .shlVx x _, r | .rnd x _, r
  | .ldVxDt x, r | .ldVxK x, r => r == x
  | .ldVxMem x, r => decide (r.toNat ≤ x.toNat)
  | .cls, _ | .ret, _ | .sys _, _ | .jp _, _ | .call _, _ | .seVxKk _ _, _ | .sneVxKk _ _, _ | .seVxVy _ _ _, _
  | .sneVxVy _ _ _, _ | .ldI _, _ | .jpV0 _, _ | .drw _ _ _, _ | .skp _, _ | .sknp _, _ | .ldDtVx _, _
  | .ldStVx _, _ | .addIVx _, _ | .ldFVx _, _ | .ldBVx _, _ | .ldMemVx _, _ | .nop8 _ _ _, _ | .nopE _ _, _
  | .nopF _ _, _ => false

/-- The six instructions that leave a flag in `VF` (10_state.md R11). -/
def writesFlag : Instr → Bool
  | .addVxVy _ _ | .subVxVy _ _ | .shrVx _ _ | .subnVxVy _ _ | .shlVx _ _ | .drw _ _ _ => true
  | .cls | .ret | .sys _ | .jp _ | .call _ | .seVxKk _ _ | .sneVxKk _ _ | .seVxVy _ _ _ | .ldVxKk _ _ | .addVxKk _ _
  | .ldVxVy _ _ | .orVxVy _ _ | .andVxVy _ _ | .xorVxVy _ _ | .sneVxVy _ _ _ | .ldI _ | .jpV0 _ | .rnd _ _ | .skp _
  | .sknp _ | .ldVxDt _ | .ldVxK _ | .ldDtVx _ | .ldStVx _ | .addIVx _ | .ldFVx _ | .ldBVx _ | .ldMemVx _
  | .ldVxMem _ | .nop8 _ _ _ | .nopE _ _ | .nopF _ _ => false

/-- The handler of `i` raises DATA_RANGE: it answers the state at the start of the cycle (`pc - 2` is the instruction's own
address) with the latch set, and the information value is the lowest address above 4095, `max(I, 4096)`
(60_exceptions.md R171, R172, R177; log entries 5 and 6). -/
def RaisesDataRange (i : Instr) (s : State) : Prop :=
  exec i s = .next { s with pc := s.pc - 2, fault := .dataRange } ∧
  State.faultInfo { s with pc := s.pc - 2, fault := .dataRange } = some (max s.i.toNat 4096)

/-- Some 1 bit of the sprite of `n` rows at address `base`, drawn at column `sx` and row `sy`, hits the pixel of display row
`row` and column `col`. Rows and columns wrap independently (45_random_draw.md R152). -/
def SpriteHits (m : Memory) (base n sx sy row col : Nat) : Prop :=
  ∃ r b : Nat, r < n ∧ b < 8 ∧ (m.read (base + r)).getLsbD (7 - b) = true ∧ row = (sy + r) % 32 ∧ col = (sx + b) % 64

end Sys2Proof.Machine
end

