-- ==== Sys2Proof/Certificates/Slice0/Obligations.lean ====
section
/-! DEFINITION. The statements about the model, for the provers. A handler (`exec`) takes the state with `pc` already advanced
by 2 (40_cycle_driver.md R82), so "`pc` unchanged" there means that the next instruction follows. -/

open Sys2Proof Sys2Proof.Machine

/-! ## Encoding -/

/-- Decoding the encoding of a well-formed instruction gives the instruction back, as a word and as bytes with anything
after them (30_encoding.md R61, R63, R66, R78). -/
def Obligations.DecodeOfEncodeIsIdentity : Prop :=
  ∀ i : Instr, i.wf = true →
    decodeWord (encode i) = i ∧ ∀ rest : List Byte, decodeBytes (encodeBytes i ++ rest) = .ok (i, rest)

/-- Every word decodes to a well-formed instruction whose encoding is the word again: no bit of any of the 65536 words is
dropped, and none is refused (R73). -/
def Obligations.EveryWordDecodesAndReencodes : Prop :=
  ∀ w : Word, (decodeWord w).wf = true ∧ encode (decodeWord w) = w

/-- The decoder, written group by group, takes for every word the first row of the opcode table whose mask and pattern take
it (R78). -/
def Obligations.DecoderTakesFirstTableRow : Prop :=
  ∀ w : Word, firstRow w = some (decodeWord w).rowIndex

/-- Exactly the words of R72 and R73 decode to a no-op, and R73 counts them right: 4094 in group 0, 1792 in group 8, 4064 in
group E and 3952 in group F, counted over the 16 x 256 words of the group. -/
def Obligations.NoOpWordsAndTheirNumber : Prop :=
  (∀ w : Word, (decodeWord w).isNoOp = true ↔
    (w.toNat / 4096 = 0x0 ∧ w.toNat ≠ 0x00E0 ∧ w.toNat ≠ 0x00EE) ∨
    (w.toNat / 4096 = 0x8 ∧ w.toNat % 16 ∈ [0x8, 0x9, 0xA, 0xB, 0xC, 0xD, 0xF]) ∨
    (w.toNat / 4096 = 0xE ∧ w.toNat % 256 ∉ [0x9E, 0xA1]) ∨
    (w.toNat / 4096 = 0xF ∧ w.toNat % 256 ∉ [0x07, 0x0A, 0x15, 0x18, 0x1E, 0x29, 0x33, 0x55, 0x65])) ∧
  ∀ g n : Nat, (g, n) ∈ [(0x0, 4094), (0x8, 1792), (0xE, 4064), (0xF, 3952)] →
    ((List.range 16).map fun x =>
      ((List.range 256).filter fun k => (decodeWord (BitVec.ofNat 16 (g * 4096 + x * 256 + k))).isNoOp).length).sum = n

/-- One word of every family, written out from the encoding tables (R63, R64, R66). -/
def Obligations.SampleWordsDecode : Prop :=
  decodeWord 0b0000_0000_1110_1110#16 = .ret ∧ decodeWord 0b1011_0011_0000_0001#16 = .jpV0 0x301 ∧
  decodeWord 0b0100_1010_0100_0011#16 = .sneVxKk 0xA 0x43 ∧ decodeWord 0b1000_0001_0010_0111#16 = .subnVxVy 1 2 ∧
  decodeWord 0b1111_0010_0101_0101#16 = .ldMemVx 2 ∧ decodeWord 0b1101_0001_0010_0011#16 = .drw 1 2 3 ∧
  decodeWord 0b1110_0011_1010_0001#16 = .sknp 3 ∧ decodeWord 0b1111_0101_0000_1010#16 = .ldVxK 5

/-! ## The cycle -/

/-- A step runs the decoded instruction: when the machine runs and the two bytes at `pc` decode to `i`, the step is the
handler of `i` on the state with `pc` advanced by 2, and then, if it did not fault, both timers one lower while above zero
and `prev_mask` equal to `input_mask` (40_cycle_driver.md R80 to R86). -/
def Obligations.StepRunsTheDecodedInstruction : Prop :=
  ∀ (s : State) (i : Instr), s.fault = .noFault → s.pc.toNat ≤ 4094 →
    decodeBytes [s.mem.read s.pc.toNat, s.mem.read (s.pc.toNat + 1)] = .ok (i, []) →
    ∃ t, exec i { s with pc := s.pc + 2 } = .next t ∧
      step s = .next (if t.fault = .noFault then
        { t with
          dt := BitVec.ofNat 8 (t.dt.toNat - 1), st := BitVec.ofNat 8 (t.st.toNat - 1), prevMask := t.inputMask }
        else t)

/-- Every step of every state answers a next state: no word is illegal, and each fault is an entry the machine takes
(30_encoding.md R73, 60_exceptions.md R172; that a fault is a next state is log entry 5). -/
def Obligations.EveryStepAnswersANextState : Prop := ∀ s : State, ∃ t, step s = .next t

/-- A step requested while the latch is set changes nothing and answers false (40_cycle_driver.md R89). -/
def Obligations.HaltedStepChangesNothing : Prop :=
  ∀ s : State, s.fault ≠ .noFault → step s = .next s ∧ hostStep s = .next (s, .ran false none)

/-- In every cycle that does not fault the tail runs after the handler: `prev_mask` becomes `input_mask`, and a timer that
the instruction does not write drops by one while above zero and stays at zero, one that it writes drops from the value
written. A cycle that faults does neither (40_cycle_driver.md R85, R86). -/
def Obligations.CycleTailRunsInEveryCycle : Prop :=
  (∀ s t : State, s.fault = .noFault → step s = .next t → t.fault ≠ .noFault →
    t.prevMask = s.prevMask ∧ t.dt = s.dt ∧ t.st = s.st) ∧
  ∀ (s t : State) (w : Word), s.fault = .noFault → s.fetchWord = some w → step s = .next t → t.fault = .noFault →
    t.prevMask = s.inputMask ∧
    ((∀ x, decodeWord w ≠ .ldDtVx x) → t.dt.toNat = s.dt.toNat - 1) ∧
    ((∀ x, decodeWord w ≠ .ldStVx x) → t.st.toNat = s.st.toNat - 1) ∧
    (∀ x, decodeWord w = .ldDtVx x → t.dt.toNat = (s.reg x).toNat - 1) ∧
    (∀ x, decodeWord w = .ldStVx x → t.st.toNat = (s.reg x).toNat - 1)

/-- A timer counts cycles: over `n` cycles none of which faults or writes `DT`, `DT` drops by `n`, and not below zero
(10_state.md R17, 46_keys_timers.md R167). -/
def Obligations.DelayTimerCountsCycles : Prop :=
  ∀ (n : Nat) (trace : Nat → State),
    (∀ k, k < n → (trace k).fault = .noFault ∧ step (trace k) = .next (trace (k + 1)) ∧ (trace (k + 1)).fault = .noFault ∧
      ∀ w, (trace k).fetchWord = some w → ∀ x, decodeWord w ≠ .ldDtVx x) →
    (trace n).dt.toNat = (trace 0).dt.toNat - n

/-! ## Faults -/

/-- Faults are precise: a step that sets the latch changes nothing but the latch, and the host is told `running = false`, the
cause and the information value: `pc` for a fetch fault, `max(I, 4096)` for a data fault, nothing for the stack faults
(60_exceptions.md R171 to R173). -/
def Obligations.FaultEntryChangesOnlyTheLatch : Prop :=
  ∀ s t : State, s.fault = .noFault → step s = .next t → t.fault ≠ .noFault →
    t = { s with fault := t.fault } ∧
    hostStep s = .next (t, .ran false (some
      { cause := t.fault
        info :=
          if t.fault = .fetchRange then some s.pc.toNat
          else if t.fault = .dataRange then some (max s.i.toNat 4096) else none }))

/-- The complete list of fault causes: which instruction raises which, and exactly when (60_exceptions.md R171, R174 to R178).
The four conditions exclude each other. -/
def Obligations.FaultCausesAreExactlyTheFour : Prop :=
  ∀ s t : State, s.fault = .noFault → step s = .next t →
    (t.fault = .fetchRange ↔ 4094 < s.pc.toNat) ∧
    (t.fault = .stackOverflow ↔ ∃ w nnn, s.fetchWord = some w ∧ decodeWord w = .call nnn ∧ s.sp.val = 16) ∧
    (t.fault = .stackUnderflow ↔ ∃ w, s.fetchWord = some w ∧ decodeWord w = .ret ∧ s.sp.val = 0) ∧
    (t.fault = .dataRange ↔
      ∃ w, s.fetchWord = some w ∧ dataBytes (decodeWord w) ≠ 0 ∧ 4096 < s.i.toNat + dataBytes (decodeWord w))

/-- DATA_RANGE: an instruction that touches an address above 4095 sets the latch to 4, changes nothing else, and reports the
lowest such address, which is `max(I, 4096)` (60_exceptions.md R171, R177; 44_index_memory.md R143 to R145). -/
def Obligations.DataAboveTheLastByteFaults : Prop :=
  ∀ (s : State) (w : Word), s.fault = .noFault → s.fetchWord = some w → dataBytes (decodeWord w) ≠ 0 →
    4096 < s.i.toNat + dataBytes (decodeWord w) →
    FaultCode.dataRange.code = 4#3 ∧
    ∃ a, IsLeast {a : Nat | 4095 < a ∧ ∃ k, k < dataBytes (decodeWord w) ∧ a = s.i.toNat + k} a ∧
      step s = .next { s with fault := .dataRange } ∧
      hostStep s = .next ({ s with fault := .dataRange }, .ran false (some { cause := .dataRange, info := some a }))

/-- FETCH_RANGE: a running cycle with `pc > 4094` sets the latch to 3, changes nothing else and reports `pc`; STACK_OVERFLOW
and STACK_UNDERFLOW: a running CALL with 16 live entries, and a running RET with none, set the latch to 1 and 2 and change
nothing else (60_exceptions.md R174, R175, R176). -/
def Obligations.FetchAndStackFaultsSetTheLatch : Prop :=
  ∀ s : State, s.fault = .noFault →
    (4094 < s.pc.toNat → FaultCode.fetchRange.code = 3#3 ∧
      hostStep s =
        .next ({ s with fault := .fetchRange }, .ran false (some { cause := .fetchRange, info := some s.pc.toNat }))) ∧
    (∀ w nnn, s.fetchWord = some w → decodeWord w = .call nnn → s.sp.val = 16 → FaultCode.stackOverflow.code = 1#3 ∧
      hostStep s =
        .next ({ s with fault := .stackOverflow }, .ran false (some { cause := .stackOverflow, info := none }))) ∧
    (∀ w, s.fetchWord = some w → decodeWord w = .ret → s.sp.val = 0 → FaultCode.stackUnderflow.code = 2#3 ∧
      hostStep s =
        .next ({ s with fault := .stackUnderflow }, .ran false (some { cause := .stackUnderflow, info := none })))

/-! ## Reset and the invariant -/

/-- The state after reset, piece by piece (10_state.md R34), for every value of the OPEN parameter FONT_DATA, whose bytes stand
at 0 to 79 (20_memory.md R43); every other byte is zero; no key is held; the latch is clear. `State.reset` is such a state. -/
def Obligations.ResetValues : Prop :=
  (∃ font : Vector Byte 80, State.reset = State.resetWith font) ∧
  ∀ (font : Vector Byte 80) (s : State), s = State.resetWith font →
    (∀ r : Reg, s.reg r = 0#8) ∧ s.i = 0#16 ∧ s.pc = 0x200#16 ∧ s.sp.val = 0 ∧ (∀ k (h : k < 16), s.stack[k] = 0#16) ∧
    (∀ a (h : a < 80), s.mem.read a = font[a]) ∧ (∀ a, 80 ≤ a → s.mem.read a = 0#8) ∧
    s.dt = 0#8 ∧ s.st = 0#8 ∧ (∀ p, s.disp.pixel p = false) ∧ s.inputMask = 0#16 ∧ s.prevMask = 0#16 ∧ s.fault = .noFault

/-- The invariant holds after reset, whatever the OPEN parameter FONT_DATA is (log entry 4); the canonical form of the memory in
it is the model's, log entry 16. -/
def Obligations.InvariantHoldsAtReset : Prop := State.reset.Inv ∧ ∀ font : Vector Byte 80, (State.resetWith font).Inv

/-- Every step keeps the invariant: the memory's canonical form (within addresses 0 to 4095), `pc` at most 0x10FE, and every
stack entry at most 0x1000, from every state that meets it (10_state.md R13; the canonical form is log entry 16, and the bound
on stack entries is inferred from 41_flow.md R103 and 60_exceptions.md R176). -/
def Obligations.StepKeepsTheInvariant : Prop := ∀ s t : State, s.Inv → step s = .next t → t.Inv

/-- Every session of host transactions keeps the invariant, whatever the OPEN parameters are (log entries 4 and 9). -/
def Obligations.SessionKeepsTheInvariant : Prop :=
  ∀ (p : Params) (xs : List Transaction) (s t : State) (replies : List Reply),
    s.Inv → session p xs s = .next (t, replies) → t.Inv

/-! ## Memory -/

/-- Memory is plain storage in canonical form: from a well-formed memory a write to an address that exists gives a well-formed
memory in which that address reads the byte and every other address reads as before (20_memory.md R44, R49). -/
def Obligations.MemoryReadsTheLastByteWritten : Prop :=
  ∀ (m : Memory) (a : Nat) (b : Byte), m.wf = true → a ≤ 4095 →
    (m.write a b).wf = true ∧ (m.write a b).read a = b ∧ ∀ a', a' ≠ a → (m.write a b).read a' = m.read a'

/-- Two well-formed memories that read alike at every address that exists are the same memory (the model's canonical form,
log entry 16). -/
def Obligations.EqualReadingMemoriesAreEqual : Prop :=
  ∀ m m' : Memory, m.wf = true → m'.wf = true → (∀ a, a ≤ 4095 → m.read a = m'.read a) → m = m'

/-! ## Group 0 and the control transfers -/

/-- `CLS`: every pixel dark and nothing else changed, `VF` included (41_flow.md R100). -/
def Obligations.ClearScreenDarkensEveryPixel : Prop :=
  decodeWord 0x00E0#16 = .cls ∧
  ∀ s : State, ∃ t, exec .cls s = .next t ∧ (∀ p, t.disp.pixel p = false) ∧ (∀ k, k < 8192 → (framebuffer t)[k]? = some 0#8) ∧
    Frame [] [.disp] s t

/-- `JP nnn` and `JP V0, nnn`: the target is `nnn`, and `nnn + V0` not reduced to 12 bits (41_flow.md R102, R104). -/
def Obligations.JumpTargets : Prop :=
  ∀ (nnn : Addr12) (s : State),
    (decodeWord (0x1#4 ++ nnn) = .jp nnn ∧
      ∃ t, exec (.jp nnn) s = .next t ∧ t.pc.toNat = nnn.toNat ∧ Frame [] [.pc] s t) ∧
    (decodeWord (0xB#4 ++ nnn) = .jpV0 nnn ∧
      ∃ t, exec (.jpV0 nnn) s = .next t ∧ t.pc.toNat = nnn.toNat + (s.reg V0).toNat ∧ Frame [] [.pc] s t)

/-- `CALL nnn`: with a free entry it saves the address after the call and jumps; with 16 live entries it raises STACK_OVERFLOW,
and the state is the one at the start of the cycle (`pc - 2` is the call's own address) with the latch set
(41_flow.md R103). -/
def Obligations.CallSavesTheReturnAddress : Prop :=
  ∀ (nnn : Addr12) (s : State), decodeWord (0x2#4 ++ nnn) = .call nnn ∧
    (∀ h : s.sp.val < 16, ∃ t, exec (.call nnn) s = .next t ∧ t.stack[s.sp.val] = s.pc ∧ t.sp.val = s.sp.val + 1 ∧
      t.pc.toNat = nnn.toNat ∧ (∀ k (hk : k < 16), k ≠ s.sp.val → t.stack[k] = s.stack[k]) ∧
      Frame [] [.pc, .sp, .stack] s t) ∧
    (s.sp.val = 16 → exec (.call nnn) s = .next { s with pc := s.pc - 2, fault := .stackOverflow })

/-- `RET`: with a live entry it pops it into `pc` and leaves the entry's value in the array; with none it raises
STACK_UNDERFLOW (41_flow.md R101). -/
def Obligations.ReturnPopsTheLastEntry : Prop :=
  decodeWord 0x00EE#16 = .ret ∧ ∀ s : State,
    (∀ h : 0 < s.sp.val, ∃ t, exec .ret s = .next t ∧ t.pc = s.stack[s.sp.val - 1] ∧ t.sp.val = s.sp.val - 1 ∧
      Frame [] [.pc, .sp] s t) ∧
    (s.sp.val = 0 → exec .ret s = .next { s with pc := s.pc - 2, fault := .stackUnderflow })

/-- A call, then anything that leaves the stack and `SP` as the call left them, then a return, is back at the instruction
after the call with `SP` as it was (41_flow.md R101). -/
def Obligations.CallThenReturnRestores : Prop :=
  ∀ (nnn : Addr12) (s : State), s.sp.val < 16 → ∃ t, exec (.call nnn) s = .next t ∧
    ∀ t' : State, t'.stack = t.stack → t'.sp = t.sp →
      ∃ u, exec .ret t' = .next u ∧ u.pc = s.pc ∧ u.sp = s.sp ∧ Frame [] [.pc, .sp] t' u

/-- The no-ops: every group-0 word but 00E0 and 00EE is `SYS nnn`, and `SYS nnn` and the unrecognised sub-codes of groups 8, E and F change nothing in the handler (41_flow.md R105,
30_encoding.md R72), and their whole cycle is the advance and the tail. -/
def Obligations.NoOpsChangeNothing : Prop :=
  (∀ nnn : Addr12, nnn ≠ 0x0E0#12 → nnn ≠ 0x0EE#12 → decodeWord (0x0#4 ++ nnn) = .sys nnn) ∧
  (∀ (nnn : Addr12) (x y : Reg) (n : Nibble) (kk : Byte) (s : State),
    exec (.sys nnn) s = .next s ∧ exec (.nop8 x y n) s = .next s ∧ exec (.nopE x kk) s = .next s ∧
    exec (.nopF x kk) s = .next s) ∧
  ∀ (s : State) (w : Word), s.fault = .noFault → s.fetchWord = some w → (decodeWord w).isNoOp = true →
    ∃ t, step s = .next t ∧ t.pc = s.pc + 2 ∧ t.dt.toNat = s.dt.toNat - 1 ∧ t.st.toNat = s.st.toNat - 1 ∧
      t.prevMask = s.inputMask ∧ Frame [] [.pc, .dt, .st, .prevMask] s t

/-! ## Skips -/

/-- The skips on a literal: `pc` moves 2 more exactly when the register equals it, or differs from it
(42_skips.md R110, R111). -/
def Obligations.LiteralSkips : Prop :=
  ∀ (x : Reg) (kk : Byte) (s : State),
    (decodeWord (0x3#4 ++ x ++ kk) = .seVxKk x kk ∧
      ∃ t, exec (.seVxKk x kk) s = .next t ∧ (s.reg x = kk → t.pc = s.pc + 2) ∧ (s.reg x ≠ kk → t.pc = s.pc) ∧
        Frame [] [.pc] s t) ∧
    (decodeWord (0x4#4 ++ x ++ kk) = .sneVxKk x kk ∧
      ∃ t, exec (.sneVxKk x kk) s = .next t ∧ (s.reg x ≠ kk → t.pc = s.pc + 2) ∧ (s.reg x = kk → t.pc = s.pc) ∧
        Frame [] [.pc] s t)

/-- The skips on two registers, whatever the low nibble of the word (42_skips.md R112, R113; 30_encoding.md R68). -/
def Obligations.RegisterSkips : Prop :=
  ∀ (x y : Reg) (n : Nibble) (s : State),
    (decodeWord (0x5#4 ++ x ++ y ++ n) = .seVxVy x y n ∧
      ∃ t, exec (.seVxVy x y n) s = .next t ∧ (s.reg x = s.reg y → t.pc = s.pc + 2) ∧ (s.reg x ≠ s.reg y → t.pc = s.pc) ∧
        Frame [] [.pc] s t) ∧
    (decodeWord (0x9#4 ++ x ++ y ++ n) = .sneVxVy x y n ∧
      ∃ t, exec (.sneVxVy x y n) s = .next t ∧ (s.reg x ≠ s.reg y → t.pc = s.pc + 2) ∧ (s.reg x = s.reg y → t.pc = s.pc) ∧
        Frame [] [.pc] s t)

/-- The key skips: a key is held when its number is at most 15 and its bit of `input_mask` is set; a number above 15 is never
held (46_keys_timers.md R160, R161, R166). -/
def Obligations.KeySkips : Prop :=
  ∀ (x : Reg) (s : State),
    (decodeWord (0xE#4 ++ x ++ 0x9E#8) = .skp x ∧
      ∃ t, exec (.skp x) s = .next t ∧
        ((s.reg x).toNat ≤ 15 → s.inputMask.getLsbD (s.reg x).toNat = true → t.pc = s.pc + 2) ∧
        ((s.reg x).toNat ≤ 15 → s.inputMask.getLsbD (s.reg x).toNat = false → t.pc = s.pc) ∧
        (15 < (s.reg x).toNat → t.pc = s.pc) ∧ Frame [] [.pc] s t) ∧
    (decodeWord (0xE#4 ++ x ++ 0xA1#8) = .sknp x ∧
      ∃ t, exec (.sknp x) s = .next t ∧
        ((s.reg x).toNat ≤ 15 → s.inputMask.getLsbD (s.reg x).toNat = true → t.pc = s.pc) ∧
        ((s.reg x).toNat ≤ 15 → s.inputMask.getLsbD (s.reg x).toNat = false → t.pc = s.pc + 2) ∧
        (15 < (s.reg x).toNat → t.pc = s.pc + 2) ∧ Frame [] [.pc] s t)

/-- A skip fetched at address `a` leaves `a + 4` when taken and `a + 2` when not, and never faults; where that is above 4094 the
next fetch does (42_skips.md R114): for the four compare skips and the two key skips. -/
def Obligations.SkipAdvancesByFourOrTwo : Prop :=
  ∀ (s : State) (w : Word), s.fault = .noFault → s.fetchWord = some w →
    ∀ taken : Prop,
      ((∃ x kk, decodeWord w = .seVxKk x kk ∧ (taken ↔ s.reg x = kk)) ∨
       (∃ x kk, decodeWord w = .sneVxKk x kk ∧ (taken ↔ s.reg x ≠ kk)) ∨
       (∃ x y n, decodeWord w = .seVxVy x y n ∧ (taken ↔ s.reg x = s.reg y)) ∨
       (∃ x y n, decodeWord w = .sneVxVy x y n ∧ (taken ↔ s.reg x ≠ s.reg y)) ∨
       (∃ x, decodeWord w = .skp x ∧ (taken ↔ (s.reg x).toNat ≤ 15 ∧ s.inputMask.getLsbD (s.reg x).toNat = true)) ∨
       (∃ x, decodeWord w = .sknp x ∧ (taken ↔ ¬((s.reg x).toNat ≤ 15 ∧ s.inputMask.getLsbD (s.reg x).toNat = true)))) →
      ∃ t, step s = .next t ∧ t.fault = .noFault ∧ (taken → t.pc.toNat = s.pc.toNat + 4) ∧
        (¬taken → t.pc.toNat = s.pc.toNat + 2) ∧ Frame [] [.pc, .dt, .st, .prevMask] s t ∧
        (4094 < t.pc.toNat → step t = .next { t with fault := .fetchRange })

/-! ## Loads and the ALU -/

/-- `LD Vx, kk` and `ADD Vx, kk`: the register takes the literal, or the wrapped sum; no flag is written, so `VF` changes only
when it is `Vx` (43_load_alu.md R120, R121). -/
def Obligations.LiteralLoadAndAdd : Prop :=
  ∀ (x : Reg) (kk : Byte) (s : State),
    (decodeWord (0x6#4 ++ x ++ kk) = .ldVxKk x kk ∧
      ∃ t, exec (.ldVxKk x kk) s = .next t ∧ t.reg x = kk ∧ Frame [x] [] s t) ∧
    (decodeWord (0x7#4 ++ x ++ kk) = .addVxKk x kk ∧
      ∃ t, exec (.addVxKk x kk) s = .next t ∧ (t.reg x).toNat = ((s.reg x).toNat + kk.toNat) % 256 ∧ Frame [x] [] s t)

/-- `LD`, `OR`, `AND` and `XOR` of two registers, bit by bit, with no flag (43_load_alu.md R122 to R125). -/
def Obligations.CopyAndLogic : Prop :=
  ∀ (x y : Reg) (s : State),
    (decodeWord (0x8#4 ++ x ++ y ++ 0x0#4) = .ldVxVy x y ∧
      ∃ t, exec (.ldVxVy x y) s = .next t ∧ t.reg x = s.reg y ∧ Frame [x] [] s t) ∧
    (decodeWord (0x8#4 ++ x ++ y ++ 0x1#4) = .orVxVy x y ∧
      ∃ t, exec (.orVxVy x y) s = .next t ∧
        (∀ b, (t.reg x).getLsbD b = ((s.reg x).getLsbD b || (s.reg y).getLsbD b)) ∧ Frame [x] [] s t) ∧
    (decodeWord (0x8#4 ++ x ++ y ++ 0x2#4) = .andVxVy x y ∧
      ∃ t, exec (.andVxVy x y) s = .next t ∧
        (∀ b, (t.reg x).getLsbD b = ((s.reg x).getLsbD b && (s.reg y).getLsbD b)) ∧ Frame [x] [] s t) ∧
    (decodeWord (0x8#4 ++ x ++ y ++ 0x3#4) = .xorVxVy x y ∧
      ∃ t, exec (.xorVxVy x y) s = .next t ∧
        (∀ b, (t.reg x).getLsbD b = ((s.reg x).getLsbD b ^^ (s.reg y).getLsbD b)) ∧ Frame [x] [] s t)

/-- `ADD Vx, Vy`: `VF` ends as the carry, 1 exactly when the sum passes 255, and any other destination holds the sum modulo
256; both operands are the old values (43_load_alu.md R126). -/
def Obligations.AddReportsTheCarry : Prop :=
  ∀ (x y : Reg) (s : State), decodeWord (0x8#4 ++ x ++ y ++ 0x4#4) = .addVxVy x y ∧
    ∃ t, exec (.addVxVy x y) s = .next t ∧
      (t.reg VF).toNat = ((s.reg x).toNat + (s.reg y).toNat) / 256 ∧
      (x ≠ VF → (t.reg x).toNat = ((s.reg x).toNat + (s.reg y).toNat) % 256) ∧ Frame [x, VF] [] s t

/-- `SUB Vx, Vy` and `SUBN Vx, Vy`: `VF` ends as the borrow, 1 exactly when the minuend is smaller, and any other destination
holds the difference modulo 256 (43_load_alu.md R127, R129). -/
def Obligations.SubtractReportsTheBorrow : Prop :=
  ∀ (x y : Reg) (s : State),
    (decodeWord (0x8#4 ++ x ++ y ++ 0x5#4) = .subVxVy x y ∧
      ∃ t, exec (.subVxVy x y) s = .next t ∧
        ((s.reg x).toNat < (s.reg y).toNat → t.reg VF = 1#8) ∧ ((s.reg y).toNat ≤ (s.reg x).toNat → t.reg VF = 0#8) ∧
        (x ≠ VF → ((t.reg x).toNat : Int) = ((s.reg x).toNat - (s.reg y).toNat : Int) % 256) ∧ Frame [x, VF] [] s t) ∧
    (decodeWord (0x8#4 ++ x ++ y ++ 0x7#4) = .subnVxVy x y ∧
      ∃ t, exec (.subnVxVy x y) s = .next t ∧
        ((s.reg y).toNat < (s.reg x).toNat → t.reg VF = 1#8) ∧ ((s.reg x).toNat ≤ (s.reg y).toNat → t.reg VF = 0#8) ∧
        (x ≠ VF → ((t.reg x).toNat : Int) = ((s.reg y).toNat - (s.reg x).toNat : Int) % 256) ∧ Frame [x, VF] [] s t)

/-- `SHR Vx` and `SHL Vx`, whatever `y`: one register in place, `VF` ends as the bit shifted out (43_load_alu.md R128, R130). -/
def Obligations.ShiftsReportTheBitOut : Prop :=
  ∀ (x y : Reg) (s : State),
    (decodeWord (0x8#4 ++ x ++ y ++ 0x6#4) = .shrVx x y ∧
      ∃ t, exec (.shrVx x y) s = .next t ∧ (t.reg VF).toNat = (s.reg x).toNat % 2 ∧
        (x ≠ VF → (t.reg x).toNat = (s.reg x).toNat / 2) ∧ Frame [x, VF] [] s t) ∧
    (decodeWord (0x8#4 ++ x ++ y ++ 0xE#4) = .shlVx x y ∧
      ∃ t, exec (.shlVx x y) s = .next t ∧ (t.reg VF).toNat = (s.reg x).toNat / 128 ∧
        (x ≠ VF → (t.reg x).toNat = 2 * (s.reg x).toNat % 256) ∧ Frame [x, VF] [] s t)

/-! ## The index register and the memory instructions -/

/-- `LD I, nnn`, `ADD I, Vx` (modulo 65536, no flag) and `LD F, Vx` (five times the whole byte, FONT_BASE being 0)
(44_index_memory.md R140, R141, R142). -/
def Obligations.IndexRegisterWrites : Prop :=
  ∀ (nnn : Addr12) (x : Reg) (s : State),
    (decodeWord (0xA#4 ++ nnn) = .ldI nnn ∧
      ∃ t, exec (.ldI nnn) s = .next t ∧ t.i.toNat = nnn.toNat ∧ Frame [] [.i] s t) ∧
    (decodeWord (0xF#4 ++ x ++ 0x1E#8) = .addIVx x ∧
      ∃ t, exec (.addIVx x) s = .next t ∧ t.i.toNat = (s.i.toNat + (s.reg x).toNat) % 65536 ∧ Frame [] [.i] s t) ∧
    (decodeWord (0xF#4 ++ x ++ 0x29#8) = .ldFVx x ∧
      ∃ t, exec (.ldFVx x) s = .next t ∧ t.i.toNat = 5 * (s.reg x).toNat ∧ Frame [] [.i] s t)

/-- `LD B, Vx`: hundreds, tens and ones at `I`, `I + 1`, `I + 2`, every other byte and `I` unchanged; DATA_RANGE when `I + 2` is
above 4095 (44_index_memory.md R143). The memory is in its canonical form, an invariant (StepKeepsTheInvariant). -/
def Obligations.DecimalStore : Prop :=
  ∀ (x : Reg) (s : State), s.mem.wf = true → decodeWord (0xF#4 ++ x ++ 0x33#8) = .ldBVx x ∧
    (s.i.toNat + 2 ≤ 4095 → ∃ t, exec (.ldBVx x) s = .next t ∧
      (t.mem.read s.i.toNat).toNat = (s.reg x).toNat / 100 ∧
      (t.mem.read (s.i.toNat + 1)).toNat = (s.reg x).toNat / 10 % 10 ∧
      (t.mem.read (s.i.toNat + 2)).toNat = (s.reg x).toNat % 10 ∧
      SameMemOutside s.i.toNat 3 s t ∧ Frame [] [.mem] s t) ∧
    (4095 < s.i.toNat + 2 → RaisesDataRange (.ldBVx x) s)

/-- `LD [I], Vx`: `V[0]` to `V[x]` at `I` to `I + x`, every other byte unchanged, `I` moved on by `x + 2`; DATA_RANGE when `I + x`
is above 4095 (44_index_memory.md R144). The memory is in its canonical form, an invariant. -/
def Obligations.BlockStore : Prop :=
  ∀ (x : Reg) (s : State), s.mem.wf = true → decodeWord (0xF#4 ++ x ++ 0x55#8) = .ldMemVx x ∧
    (s.i.toNat + x.toNat ≤ 4095 → ∃ t, exec (.ldMemVx x) s = .next t ∧
      (∀ r : Reg, r.toNat ≤ x.toNat → t.mem.read (s.i.toNat + r.toNat) = s.reg r) ∧
      SameMemOutside s.i.toNat (x.toNat + 1) s t ∧ t.i.toNat = (s.i.toNat + x.toNat + 2) % 65536 ∧
      Frame [] [.mem, .i] s t) ∧
    (4095 < s.i.toNat + x.toNat → RaisesDataRange (.ldMemVx x) s)

/-- `LD Vx, [I]`: `V[0]` to `V[x]` from `I` to `I + x`, the registers above and memory unchanged, `I` moved on by `x + 2`;
DATA_RANGE when `I + x` is above 4095 (44_index_memory.md R145). -/
def Obligations.BlockLoad : Prop :=
  ∀ (x : Reg) (s : State), decodeWord (0xF#4 ++ x ++ 0x65#8) = .ldVxMem x ∧
    (s.i.toNat + x.toNat ≤ 4095 → ∃ t, exec (.ldVxMem x) s = .next t ∧
      (∀ r : Reg, r.toNat ≤ x.toNat → t.reg r = s.mem.read (s.i.toNat + r.toNat)) ∧
      t.i.toNat = (s.i.toNat + x.toNat + 2) % 65536 ∧
      Frame ((List.range (x.toNat + 1)).map (BitVec.ofNat 4)) [.i] s t) ∧
    (4095 < s.i.toNat + x.toNat → RaisesDataRange (.ldVxMem x) s)

/-- A block store, then anything that keeps memory, then a block load from the same start address, gives the registers their
values back and moves `I` as the store did (44_index_memory.md R145, 90_conflicts.md C4). -/
def Obligations.BlockTransferRoundTrips : Prop :=
  ∀ (x : Reg) (s : State), s.mem.wf = true → s.i.toNat + x.toNat ≤ 4095 → ∃ t, exec (.ldMemVx x) s = .next t ∧
    ∀ t' : State, t'.mem = t.mem → t'.i = s.i →
      ∃ u, exec (.ldVxMem x) t' = .next u ∧ (∀ r : Reg, r.toNat ≤ x.toNat → u.reg r = s.reg r) ∧ u.i = t.i

/-- Fetch is coherent with stores: after a block store of `V0` and `V1` at `I`, a cycle that starts with `pc = I` fetches the
word `V0, V1`, big-endian (20_memory.md R46, R55). -/
def Obligations.FetchSeesTheStoredWord : Prop :=
  ∀ (x : Reg) (s : State), s.mem.wf = true → 1 ≤ x.toNat → s.i.toNat + x.toNat ≤ 4095 → ∃ t, exec (.ldMemVx x) s = .next t ∧
    ∀ u : State, u.mem = t.mem → u.pc = s.i → ∃ w, u.fetchWord = some w ∧
      w.toNat = (s.reg V0).toNat * 256 + (s.reg 0x1).toNat

/-! ## Random and draw -/

/-- `RND Vx, kk`: the register takes the next free byte AND the mask, so every bit that is 0 in `kk` is 0 in it; nothing else
changes but the count of draws (45_random_draw.md R150, R151). The count and the form of the free byte are the model's own (log
entries 1 and 3); it holds for every value of the count. -/
def Obligations.RandomIsMasked : Prop :=
  ∀ (x : Reg) (kk : Byte) (s : State), decodeWord (0xC#4 ++ x ++ kk) = .rnd x kk ∧
    ∃ t, exec (.rnd x kk) s = .next t ∧
      (∃ draw : Byte, draw = Config.rand8 s.draws ∧ ∀ b, (t.reg x).getLsbD b = (draw.getLsbD b && kk.getLsbD b)) ∧
      (t.reg x).toNat ≤ kk.toNat ∧ t.draws = s.draws + 1 ∧ Frame [x] [.draws] s t

/-- `DRW Vx, Vy, n`: with every row in memory (or no row), each pixel is toggled exactly when a 1 bit of the sprite hits it,
wrapping at both edges; `VF` is 1 when a hit pixel was lit before the instruction and 0 otherwise; nothing else changes.
With a row above address 4095 it raises DATA_RANGE (45_random_draw.md R152, R153). -/
def Obligations.DrawTogglesTheHitPixels : Prop :=
  ∀ (x y : Reg) (n : Nibble) (s : State), decodeWord (0xD#4 ++ x ++ y ++ n) = .drw x y n ∧
    ((n.toNat = 0 ∨ s.i.toNat + n.toNat ≤ 4096) → ∃ t, exec (.drw x y n) s = .next t ∧
      (∀ row col, row < 32 → col < 64 →
        ((SpriteHits s.mem s.i.toNat n.toNat (s.reg x).toNat (s.reg y).toNat row col →
            t.disp.pixel (row * 64 + col) = !s.disp.pixel (row * 64 + col)) ∧
         (¬SpriteHits s.mem s.i.toNat n.toNat (s.reg x).toNat (s.reg y).toNat row col →
            t.disp.pixel (row * 64 + col) = s.disp.pixel (row * 64 + col)))) ∧
      ((∃ row col, row < 32 ∧ col < 64 ∧ s.disp.pixel (row * 64 + col) = true ∧
          SpriteHits s.mem s.i.toNat n.toNat (s.reg x).toNat (s.reg y).toNat row col) → t.reg VF = 1#8) ∧
      ((¬∃ row col, row < 32 ∧ col < 64 ∧ s.disp.pixel (row * 64 + col) = true ∧
          SpriteHits s.mem s.i.toNat n.toNat (s.reg x).toNat (s.reg y).toNat row col) → t.reg VF = 0#8) ∧
      Frame [VF] [.disp] s t) ∧
    (n.toNat ≠ 0 → 4096 < s.i.toNat + n.toNat → RaisesDataRange (.drw x y n) s)

/-- No self-collision: the pixels that one sprite of at most 15 rows hits are distinct pixels of the display, whatever its
bytes and coordinates (45_random_draw.md R154). -/
def Obligations.SpriteHitsNoPixelTwice : Prop :=
  ∀ (sx sy : Nat) (rows : List Byte), rows.length ≤ 15 →
    (spritePixels sx sy 0 rows).Nodup ∧ ∀ p ∈ spritePixels sx sy 0 rows, p < 2048

/-- Double draw: drawing the same sprite at the same place twice restores the display, and the second draw reports a collision
exactly when some pixel it hits was dark before the first (45_random_draw.md R155). -/
def Obligations.DoubleDrawRestoresTheDisplay : Prop :=
  ∀ (x y : Reg) (n : Nibble) (s : State), (n.toNat = 0 ∨ s.i.toNat + n.toNat ≤ 4096) → ∃ t, exec (.drw x y n) s = .next t ∧
    ∀ t' : State, t'.disp = t.disp → t'.mem = s.mem → t'.i = s.i → t'.reg x = s.reg x → t'.reg y = s.reg y →
      ∃ u, exec (.drw x y n) t' = .next u ∧ u.disp = s.disp ∧ (u.reg VF = 0#8 ∨ u.reg VF = 1#8) ∧
        (u.reg VF = 1#8 ↔ ∃ row col, row < 32 ∧ col < 64 ∧ s.disp.pixel (row * 64 + col) = false ∧
          SpriteHits s.mem s.i.toNat n.toNat (s.reg x).toNat (s.reg y).toNat row col)

/-! ## Keys and timers -/

/-- `LD Vx, K`: while the masks are equal it undoes the advance and runs again; when exactly one bit differs it stores that
bit's number, on a press and on a release; when several differ it stores a free byte and goes on
(46_keys_timers.md R163). The count of draws and the form of the free byte are the model's own (log entries 2 and 3). -/
def Obligations.KeyWaitReportsTheChangedKey : Prop :=
  ∀ (x : Reg) (s : State), decodeWord (0xF#4 ++ x ++ 0x0A#8) = .ldVxK x ∧
    (s.inputMask = s.prevMask → ∃ t, exec (.ldVxK x) s = .next t ∧ t.pc = s.pc - 2 ∧ Frame [] [.pc] s t) ∧
    (∀ k, k < 16 → (∀ b, b < 16 → (s.inputMask.getLsbD b ≠ s.prevMask.getLsbD b ↔ b = k)) →
      ∃ t, exec (.ldVxK x) s = .next t ∧ (t.reg x).toNat = k ∧ Frame [x] [] s t) ∧
    (s.inputMask ≠ s.prevMask →
      (¬∃ k, k < 16 ∧ ∀ b, b < 16 → (s.inputMask.getLsbD b ≠ s.prevMask.getLsbD b ↔ b = k)) →
      ∃ t, exec (.ldVxK x) s = .next t ∧ t.reg x = Config.keyWaitMulti s.draws s.inputMask s.prevMask ∧
        t.draws = s.draws + 1 ∧ Frame [x] [.draws] s t)

/-- `LD Vx, DT`, `LD DT, Vx` and `LD ST, Vx`: in the handler, before the tail's decrement, and over the whole cycle, after it
(46_keys_timers.md R162, R164, R165). -/
def Obligations.TimerAccess : Prop :=
  (∀ (x : Reg) (s : State),
    (decodeWord (0xF#4 ++ x ++ 0x07#8) = .ldVxDt x ∧
      ∃ t, exec (.ldVxDt x) s = .next t ∧ t.reg x = s.dt ∧ Frame [x] [] s t) ∧
    (decodeWord (0xF#4 ++ x ++ 0x15#8) = .ldDtVx x ∧
      ∃ t, exec (.ldDtVx x) s = .next t ∧ t.dt = s.reg x ∧ Frame [] [.dt] s t) ∧
    (decodeWord (0xF#4 ++ x ++ 0x18#8) = .ldStVx x ∧
      ∃ t, exec (.ldStVx x) s = .next t ∧ t.st = s.reg x ∧ Frame [] [.st] s t)) ∧
  ∀ (x : Reg) (s : State) (w : Word), s.fault = .noFault → s.fetchWord = some w →
    (decodeWord w = .ldVxDt x → ∃ t, step s = .next t ∧ t.reg x = s.dt ∧ t.dt.toNat = s.dt.toNat - 1) ∧
    (decodeWord w = .ldDtVx x → ∃ t, step s = .next t ∧ t.dt.toNat = (s.reg x).toNat - 1) ∧
    (decodeWord w = .ldStVx x → ∃ t, step s = .next t ∧ t.st.toNat = (s.reg x).toNat - 1)

/-! ## Whole-machine rules: who writes what -/

/-- Only `LD B` and `LD [I]` change memory, and only bytes from `I` up, as many as they store; a cycle of any other instruction,
and a cycle that faults, leaves every byte (20_memory.md R48). -/
def Obligations.OnlyTheTwoStoresChangeMemory : Prop :=
  ∀ (s t : State) (w : Word), s.fault = .noFault → s.fetchWord = some w → step s = .next t →
    ((∀ x, decodeWord w ≠ .ldBVx x) → (∀ x, decodeWord w ≠ .ldMemVx x) → ∀ a, t.mem.read a = s.mem.read a) ∧
    SameMemOutside s.i.toNat (dataBytes (decodeWord w)) s t ∧
    (t.fault ≠ .noFault → ∀ a, t.mem.read a = s.mem.read a)

/-- Only a call changes the stack, and only its entry `SP`; only a call and a return change `SP`, by one
(10_state.md R14, R15). -/
def Obligations.OnlyCallAndReturnChangeTheStack : Prop :=
  ∀ (s t : State) (w : Word), s.fault = .noFault → s.fetchWord = some w → step s = .next t →
    ((∀ nnn, decodeWord w ≠ .call nnn) → t.stack = s.stack) ∧
    ((∀ nnn, decodeWord w ≠ .call nnn) → decodeWord w ≠ .ret → t.sp = s.sp) ∧
    (∀ k (h : k < 16), k ≠ s.sp.val → t.stack[k] = s.stack[k]) ∧
    t.sp.val ≤ s.sp.val + 1 ∧ s.sp.val ≤ t.sp.val + 1

/-- Only `CLS` and `DRW` change the display (10_state.md R18); only Annn, Fx1E, Fx29, Fx55 and Fx65 change `I` (R12); and no
cycle changes `input_mask`, which only the host writes (R20). -/
def Obligations.WritersOfDisplayIndexAndInputMask : Prop :=
  ∀ (s t : State) (w : Word), s.fault = .noFault → s.fetchWord = some w → step s = .next t →
    (decodeWord w ≠ .cls → (∀ x y n, decodeWord w ≠ .drw x y n) → t.disp = s.disp) ∧
    ((∀ nnn, decodeWord w ≠ .ldI nnn) → (∀ x, decodeWord w ≠ .addIVx x) → (∀ x, decodeWord w ≠ .ldFVx x) →
      (∀ x, decodeWord w ≠ .ldMemVx x) → (∀ x, decodeWord w ≠ .ldVxMem x) → t.i = s.i) ∧
    t.inputMask = s.inputMask

/-- A cycle changes no general register that the instruction does not name as a destination, but for `VF` in the six
flag-writing instructions; and each of those, when it does not fault, leaves exactly 0 or 1 in `VF`
(10_state.md R11, 40_cycle_driver.md R84). -/
def Obligations.RegisterWritersAndTheFlag : Prop :=
  ∀ (s t : State) (w : Word), s.fault = .noFault → s.fetchWord = some w → step s = .next t →
    (∀ r : Reg, namesDest (decodeWord w) r = false → (r = VF → writesFlag (decodeWord w) = false) → t.reg r = s.reg r) ∧
    (writesFlag (decodeWord w) = true → t.fault = .noFault → t.reg VF = 0#8 ∨ t.reg VF = 1#8)

/-- Outside the control transfers, the skips and the key-wait, a cycle that does not fault leaves `pc` at the following
instruction (10_state.md R13, 40_cycle_driver.md R82). -/
def Obligations.OtherInstructionsFallThrough : Prop :=
  ∀ (s t : State) (w : Word), s.fault = .noFault → s.fetchWord = some w → step s = .next t → t.fault = .noFault →
    decodeWord w ≠ .ret → (∀ nnn, decodeWord w ≠ .jp nnn) → (∀ nnn, decodeWord w ≠ .call nnn) →
    (∀ nnn, decodeWord w ≠ .jpV0 nnn) → (∀ x kk, decodeWord w ≠ .seVxKk x kk) → (∀ x kk, decodeWord w ≠ .sneVxKk x kk) →
    (∀ x y n, decodeWord w ≠ .seVxVy x y n) → (∀ x y n, decodeWord w ≠ .sneVxVy x y n) → (∀ x, decodeWord w ≠ .skp x) →
    (∀ x, decodeWord w ≠ .sknp x) → (∀ x, decodeWord w ≠ .ldVxK x) → t.pc.toNat = s.pc.toNat + 2

/-- The model's count of draws is read and advanced by `RND` and the key-wait alone: any other instruction behaves alike
whatever the count, and leaves it (the model's own field, log entry 3). -/
def Obligations.DrawCountReachesOnlyRandomAndKeyWait : Prop :=
  ∀ (i : Instr) (s : State) (n : Nat), (∀ x kk, i ≠ .rnd x kk) → (∀ x, i ≠ .ldVxK x) →
    ∃ t, exec i s = .next t ∧ t.draws = s.draws ∧ exec i { s with draws := n } = .next { t with draws := n }

/-! ## The host's transactions -/

/-- The result of a step that does not fault is whether the word at the final `pc` can be read and is not 0x0000; a step that
faults, and one requested while the latch is set, answer false (40_cycle_driver.md R87). -/
def Obligations.StepResultPeeksAtTheNextWord : Prop :=
  ∀ s t : State, step s = .next t →
    (s.fault = .noFault → t.fault = .noFault → ∃ running, hostStep s = .next (t, .ran running none) ∧
      (running = true ↔ t.pc.toNat ≤ 4094 ∧
        ¬(t.mem.read t.pc.toNat = 0#8 ∧ t.mem.read (t.pc.toNat + 1) = 0#8))) ∧
    (t.fault ≠ .noFault → ∃ report, hostStep s = .next (t, .ran false report))

/-- A frame of `n` cycles is `n` consecutive steps, and its result is true exactly when one of theirs is
(40_cycle_driver.md R88); the transaction `Frame` is a frame of `CYCLES_PER_FRAME` steps, whatever that OPEN parameter is, and
of 9 steps at its default (the default is log entry 9: unsafe for a host with another number). -/
def Obligations.FrameIsConsecutiveSteps : Prop :=
  (∀ (p : Params) (s : State), perform p .frame s = hostFrame p.cyclesPerFrame s) ∧
  (∀ s : State, perform defaultParams .frame s = hostFrame 9 s) ∧
  ∀ (n : Nat) (s : State), ∃ (trace : Nat → State) (running : Bool) (report : Option FaultReport),
    trace 0 = s ∧ (∀ k, k < n → step (trace k) = .next (trace (k + 1))) ∧
    hostFrame n s = .next (trace n, .ran running report) ∧
    (running = true ↔ ∃ k r, k < n ∧ hostStep (trace k) = .next (trace (k + 1), .ran true r))

/-- `Reset` from any state, faulted or not, gives every piece of the spec's state its reset value, the bytes 0 to 79 being the
parameter FONT_DATA, whatever the model's own count of draws then is (70_reset_and_hazards.md R200, 40_cycle_driver.md R91). -/
def Obligations.ResetFromAnyState : Prop :=
  ∀ (p : Params) (s : State), ∃ (t : State) (count : Nat), perform p .reset s = .next (t, .done) ∧
    t = { State.resetWith p.font with draws := count } ∧ t.Running ∧ t.pc.toNat = 0x200 ∧
    (∀ a (h : a < 80), t.mem.read a = p.font[a]) ∧ (∀ a, 80 ≤ a → t.mem.read a = 0#8) ∧ ∀ p, t.disp.pixel p = false

/-- `LoadProgram`: an image of at most 3584 bytes goes to memory from 0x200 up and nothing else changes; a longer one is
rejected whole (40_cycle_driver.md R92). The memory is in its canonical form, an invariant. -/
def Obligations.LoadProgramCopiesTheImage : Prop :=
  ∀ (p : Params) (bytes : List Byte) (s : State), s.mem.wf = true →
    (bytes.length ≤ 3584 → ∃ t, perform p (.loadProgram bytes) s = .next (t, .done) ∧
      (∀ k (h : k < bytes.length), t.mem.read (0x200 + k) = bytes[k]) ∧ SameMemOutside 0x200 bytes.length s t ∧
      Frame [] [.mem] s t) ∧
    (3584 < bytes.length → perform p (.loadProgram bytes) s = .next (s, .loadTooLarge))

/-- `SetKey`: one bit of `input_mask` takes the value, the other 15 keep theirs, `prev_mask` and everything else is unchanged;
an index above 15 is refused and changes nothing (40_cycle_driver.md R93). That a refused `SetKey` is a reply of its own
with the state unchanged is the model's choice, log entry 13. -/
def Obligations.SetKeyWritesOneBit : Prop :=
  ∀ (p : Params) (index : Nat) (held : Bool) (s : State),
    (index ≤ 15 → ∃ t, perform p (.setKey index held) s = .next (t, .done) ∧ t.inputMask.getLsbD index = held ∧
      (∀ k, k ≠ index → t.inputMask.getLsbD k = s.inputMask.getLsbD k) ∧ Frame [] [.inputMask] s t) ∧
    (15 < index → perform p (.setKey index held) s = .next (s, .keyRefused))

/-- `Framebuffer`: 8192 bytes, the four bytes of each pixel equal, 0xFF for lit and 0x00 for dark, in row-major order; nothing
changes (40_cycle_driver.md R94, 10_state.md R19). -/
def Obligations.FramebufferShowsFourBytesPerPixel : Prop :=
  ∀ (p : Params) (s : State), ∃ bytes, perform p .framebuffer s = .next (s, .pixels bytes) ∧ bytes.length = 8192 ∧
    ∀ row col c, row < 32 → col < 64 → c < 4 →
      bytes[4 * (row * 64 + col) + c]? = some (if s.disp.pixel (row * 64 + col) then 0xFF#8 else 0x00#8)

/-- The machine after reset, `State.reset`, takes the OPEN parameter FONT_DATA at its default (PRESUMED, log entry 4): the 16
glyph rows of the table of 20_memory.md R43, read from memory at 5 times the digit. It lists no byte of memory, it is the
reset state of the default font, and no other font gives a reset state that lists none (the model's form, log entry 16). -/
def Obligations.ResetUsesTheDefaultFont : Prop :=
  State.reset.mem.readList 0x000 5 = [0xF0#8, 0x90#8, 0x90#8, 0x90#8, 0xF0#8] ∧
  State.reset.mem.readList 0x005 5 = [0x20#8, 0x60#8, 0x20#8, 0x20#8, 0x70#8] ∧
  State.reset.mem.readList 0x00A 5 = [0xF0#8, 0x10#8, 0xF0#8, 0x80#8, 0xF0#8] ∧
  State.reset.mem.readList 0x00F 5 = [0xF0#8, 0x10#8, 0xF0#8, 0x10#8, 0xF0#8] ∧
  State.reset.mem.readList 0x014 5 = [0x90#8, 0x90#8, 0xF0#8, 0x10#8, 0x10#8] ∧
  State.reset.mem.readList 0x019 5 = [0xF0#8, 0x80#8, 0xF0#8, 0x10#8, 0xF0#8] ∧
  State.reset.mem.readList 0x01E 5 = [0xF0#8, 0x80#8, 0xF0#8, 0x90#8, 0xF0#8] ∧
  State.reset.mem.readList 0x023 5 = [0xF0#8, 0x10#8, 0x20#8, 0x40#8, 0x40#8] ∧
  State.reset.mem.readList 0x028 5 = [0xF0#8, 0x90#8, 0xF0#8, 0x90#8, 0xF0#8] ∧
  State.reset.mem.readList 0x02D 5 = [0xF0#8, 0x90#8, 0xF0#8, 0x10#8, 0xF0#8] ∧
  State.reset.mem.readList 0x032 5 = [0xF0#8, 0x90#8, 0xF0#8, 0x90#8, 0x90#8] ∧
  State.reset.mem.readList 0x037 5 = [0xE0#8, 0x90#8, 0xE0#8, 0x90#8, 0xE0#8] ∧
  State.reset.mem.readList 0x03C 5 = [0xF0#8, 0x80#8, 0x80#8, 0x80#8, 0xF0#8] ∧
  State.reset.mem.readList 0x041 5 = [0xE0#8, 0x90#8, 0x90#8, 0x90#8, 0xE0#8] ∧
  State.reset.mem.readList 0x046 5 = [0xF0#8, 0x80#8, 0xF0#8, 0x80#8, 0xF0#8] ∧
  State.reset.mem.readList 0x04B 5 = [0xF0#8, 0x80#8, 0xF0#8, 0x80#8, 0x80#8] ∧
  State.reset.mem = [] ∧ State.resetWith defaultParams.font = State.reset ∧
  ∀ (s : State) (font : Vector Byte 80), State.resetWith font = s → s.mem = [] → font = defaultParams.font
end

