-- ==== Sys2Proof/Laws/Decode.lean ====
section
/-! SUPPORT. The fields of a word put together from fields (30_encoding.md R63, R64), one lemma per field and format. -/

namespace Sys2Proof

variable (g x y n : BitVec 4) (kk : Byte) (nnn : Addr12)

/-! ### Format A: group and `nnn` -/

@[simp] theorem groupOf_formatA : groupOf (g ++ nnn) = g := by
  unfold groupOf
  apply BitVec.eq_of_getLsbD_eq
  intro k hk
  simp only [BitVec.getLsbD_extractLsb', BitVec.getLsbD_append, hk, decide_true, Bool.true_and]
  rw [if_neg (by omega)]
  congr 1
  omega

@[simp] theorem fieldNnn_formatA : fieldNnn (g ++ nnn) = nnn := by
  unfold fieldNnn
  apply BitVec.eq_of_getLsbD_eq
  intro k hk
  simp only [BitVec.getLsbD_extractLsb', BitVec.getLsbD_append, hk, decide_true, Bool.true_and, Nat.zero_add, if_true]

/-! ### Formats K and S: group, `x` and a byte -/

@[simp] theorem groupOf_formatK : groupOf (g ++ x ++ kk) = g := by
  unfold groupOf
  apply BitVec.eq_of_getLsbD_eq
  intro k hk
  simp only [BitVec.getLsbD_extractLsb', BitVec.getLsbD_append, hk, decide_true, Bool.true_and]
  rw [if_neg (by omega), if_neg (by omega)]
  congr 1
  omega

@[simp] theorem fieldX_formatK : fieldX (g ++ x ++ kk) = x := by
  unfold fieldX
  apply BitVec.eq_of_getLsbD_eq
  intro k hk
  simp only [BitVec.getLsbD_extractLsb', BitVec.getLsbD_append, hk, decide_true, Bool.true_and]
  rw [if_neg (by omega), if_pos (by omega)]
  congr 1
  omega

@[simp] theorem fieldKk_formatK : fieldKk (g ++ x ++ kk) = kk := by
  unfold fieldKk
  apply BitVec.eq_of_getLsbD_eq
  intro k hk
  simp only [BitVec.getLsbD_extractLsb', BitVec.getLsbD_append, hk, decide_true, Bool.true_and, Nat.zero_add, if_true]

/-! ### Formats R and D: group, `x`, `y` and a nibble -/

@[simp] theorem groupOf_formatR : groupOf (g ++ x ++ y ++ n) = g := by
  unfold groupOf
  apply BitVec.eq_of_getLsbD_eq
  intro k hk
  simp only [BitVec.getLsbD_extractLsb', BitVec.getLsbD_append, hk, decide_true, Bool.true_and]
  rw [if_neg (by omega), if_neg (by omega), if_neg (by omega)]
  congr 1
  omega

@[simp] theorem fieldX_formatR : fieldX (g ++ x ++ y ++ n) = x := by
  unfold fieldX
  apply BitVec.eq_of_getLsbD_eq
  intro k hk
  simp only [BitVec.getLsbD_extractLsb', BitVec.getLsbD_append, hk, decide_true, Bool.true_and]
  rw [if_neg (by omega), if_neg (by omega), if_pos (by omega)]
  congr 1
  omega

@[simp] theorem fieldY_formatR : fieldY (g ++ x ++ y ++ n) = y := by
  unfold fieldY
  apply BitVec.eq_of_getLsbD_eq
  intro k hk
  simp only [BitVec.getLsbD_extractLsb', BitVec.getLsbD_append, hk, decide_true, Bool.true_and]
  rw [if_neg (by omega), if_pos (by omega)]
  congr 1
  omega

@[simp] theorem fieldN_formatR : fieldN (g ++ x ++ y ++ n) = n := by
  unfold fieldN
  apply BitVec.eq_of_getLsbD_eq
  intro k hk
  simp only [BitVec.getLsbD_extractLsb', BitVec.getLsbD_append, hk, decide_true, Bool.true_and, Nat.zero_add, if_true]

/-! ### A word from its fields -/

/-- A word is its group and its operand. -/
theorem word_formatA (w : Word) : groupOf w ++ fieldNnn w = w := by
  unfold groupOf fieldNnn
  apply BitVec.eq_of_getLsbD_eq
  intro k hk
  simp only [BitVec.getLsbD_extractLsb', BitVec.getLsbD_append]
  split
  · next h => simp only [h, decide_true, Bool.true_and]; congr 1; omega
  · next h => rw [decide_eq_true (by omega), Bool.true_and]; congr 1; omega

/-- A word is its group, `x` and `kk`. -/
theorem word_formatK (w : Word) : groupOf w ++ fieldX w ++ fieldKk w = w := by
  unfold groupOf fieldX fieldKk
  apply BitVec.eq_of_getLsbD_eq
  intro k hk
  simp only [BitVec.getLsbD_extractLsb', BitVec.getLsbD_append]
  split
  · next h => simp only [h, decide_true, Bool.true_and]; congr 1; omega
  · split
    · next h => simp only [h, decide_true, Bool.true_and]; congr 1; omega
    · next h => rw [decide_eq_true (by omega), Bool.true_and]; congr 1; omega

/-- A word is its group, `x`, `y` and `n`. -/
theorem word_formatR (w : Word) : groupOf w ++ fieldX w ++ fieldY w ++ fieldN w = w := by
  unfold groupOf fieldX fieldY fieldN
  apply BitVec.eq_of_getLsbD_eq
  intro k hk
  simp only [BitVec.getLsbD_extractLsb', BitVec.getLsbD_append]
  split
  · next h => simp only [h, decide_true, Bool.true_and]; congr 1; omega
  · split
    · next h => simp only [h, decide_true, Bool.true_and]; congr 1; omega
    · split
      · next h => simp only [h, decide_true, Bool.true_and]; congr 1; omega
      · next h => rw [decide_eq_true (by omega), Bool.true_and]; congr 1; omega

/-- The bytes of a word give the word back. -/
@[simp] theorem wordOfBytes_bytesOfWord (w : Word) :
    wordOfBytes (w.extractLsb' 8 8) (w.extractLsb' 0 8) = w := by
  unfold wordOfBytes
  apply BitVec.eq_of_getLsbD_eq
  intro k hk
  simp only [BitVec.getLsbD_extractLsb', BitVec.getLsbD_append]
  split
  · next h => simp only [h, decide_true, Bool.true_and]; congr 1; omega
  · next h => rw [decide_eq_true (by omega), Bool.true_and]; congr 1; omega

end Sys2Proof
end

