-- ==== Sys2Proof/Laws/Display.lean ====
section
/-! SUPPORT. The laws of the display: what toggling, drawing and clearing do to each pixel. -/

namespace Sys2Proof.Machine

/-- A row of a display after one of its rows was replaced. -/
theorem Display.row_set {d : Display} {r r' : Nat} {b : BitVec 64} (hr : r < 32) :
    (d.setIfInBounds r b)[r']?.getD 0#64 = if r' = r then b else d[r']?.getD 0#64 := by
  rw [Vector.getElem?_setIfInBounds]
  by_cases h : r = r'
  · subst h; simp [hr]
  · simp [h, Ne.symm h]

@[simp] theorem Display.pixel_dark (p : Nat) : Display.dark.pixel p = false := by
  unfold Display.pixel Display.dark
  rw [Vector.getElem?_replicate]
  split <;> simp

/-- Toggling a pixel changes that pixel and no other. -/
theorem Display.pixel_toggle {d : Display} {p q : Nat} (hp : p < 2048) :
    (d.toggle p).pixel q = (d.pixel q ^^ decide (q = p)) := by
  unfold Display.pixel Display.toggle
  rw [Display.row_set (by omega)]
  by_cases hr : q / 64 = p / 64
  · rw [if_pos hr, hr, BitVec.getLsbD_xor, BitVec.getLsbD_twoPow]
    have : (decide (p % 64 < 64) && decide (p % 64 = q % 64)) = decide (q = p) := by
      rw [← Bool.decide_and]
      exact decide_eq_decide.mpr ⟨by omega, by omega⟩
    rw [this]
  · have hne : q ≠ p := fun h => hr (by rw [h])
    rw [if_neg hr, decide_eq_false hne, Bool.xor_false]

/-- Drawing distinct pixels toggles each of them once, and collides when one of them was lit. -/
theorem Display.draw_spec {d : Display} {ps : List Nat} (hps : ∀ p ∈ ps, p < 2048) (hnd : ps.Nodup) :
    (∀ q, (d.draw ps).1.pixel q = (d.pixel q ^^ decide (q ∈ ps))) ∧ (d.draw ps).2 = ps.any d.pixel := by
  induction ps generalizing d with
  | nil => simp [Display.draw]
  | cons p ps ih =>
    have hp : p < 2048 := hps p List.mem_cons_self
    obtain ⟨hnotin, hnd'⟩ := List.nodup_cons.mp hnd
    obtain ⟨hpix, hcol⟩ := ih (d := d.toggle p) (fun q hq => hps q (List.mem_cons_of_mem p hq)) hnd'
    constructor
    · intro q
      simp only [Display.draw, hpix, Display.pixel_toggle hp, List.mem_cons]
      by_cases hqp : q = p
      · subst hqp; simp [hnotin]
      · simp [hqp]
    · simp only [Display.draw, hcol, List.any_cons]
      congr 1
      rw [Bool.eq_iff_iff]
      simp only [List.any_eq_true]
      constructor
      · rintro ⟨q, hq, h⟩
        refine ⟨q, hq, ?_⟩
        have hne : q ≠ p := fun h => hnotin (h ▸ hq)
        simpa [Display.pixel_toggle hp, hne] using h
      · rintro ⟨q, hq, h⟩
        refine ⟨q, hq, ?_⟩
        have hne : q ≠ p := fun h => hnotin (h ▸ hq)
        simpa [Display.pixel_toggle hp, hne] using h

/-- Two displays with the same pixels are equal. -/
theorem Display.ext_pixel {d d' : Display} (h : ∀ p, p < 2048 → d.pixel p = d'.pixel p) : d = d' := by
  apply Vector.ext
  intro r hr
  apply BitVec.eq_of_getLsbD_eq
  intro c hc
  have := h (r * 64 + c) (by omega)
  have h1 : (r * 64 + c) / 64 = r := by omega
  have h2 : (r * 64 + c) % 64 = c := by omega
  simpa [Display.pixel, h1, h2, hr] using this

end Sys2Proof.Machine
end

