-- ==== Sys2Proof/Laws/Memory.lean ====
section
/-! SUPPORT. The laws of memory: read after write, the canonical form kept by every operation, and what the range operations
do. -/

namespace Sys2Proof.Machine

/-! ## The canonical form -/

theorem Memory.wfFrom_cons {lo k : Nat} {b : Byte} {m : Memory} :
    Memory.wfFrom lo ((k, b) :: m) = true ↔ lo ≤ k ∧ k < 4096 ∧ b ≠ unlisted k ∧ Memory.wfFrom (k + 1) m = true := by
  simp [Memory.wfFrom, Config.memSize, and_assoc]

theorem Memory.wfFrom_mono {lo lo' : Nat} {m : Memory} (h : lo' ≤ lo) (hm : Memory.wfFrom lo m = true) :
    Memory.wfFrom lo' m = true := by
  cases m with
  | nil => rfl
  | cons c m =>
    obtain ⟨k, b⟩ := c
    rw [Memory.wfFrom_cons] at hm ⊢
    exact ⟨by omega, hm.2⟩

/-- An address below every listed one reads as the reset contents. -/
theorem Memory.read_below {lo a : Nat} {m : Memory} (hm : Memory.wfFrom lo m = true) (h : a < lo) :
    m.read a = unlisted a := by
  induction m generalizing lo with
  | nil => rfl
  | cons c m ih =>
    obtain ⟨k, b⟩ := c
    rw [Memory.wfFrom_cons] at hm
    have hk : a ≠ k := by omega
    simp only [Memory.read, hk, if_false]
    exact ih hm.2.2.2 (by omega)

theorem Memory.wfFrom_write {lo a : Nat} {v : Byte} {m : Memory} (hm : Memory.wfFrom lo m = true) (hlo : lo ≤ a)
    (ha : a < 4096) : Memory.wfFrom lo (m.write a v) = true := by
  induction m generalizing lo with
  | nil =>
    simp only [Memory.write]
    split
    · rfl
    · next hv => exact Memory.wfFrom_cons.mpr ⟨hlo, ha, hv, rfl⟩
  | cons c m ih =>
    obtain ⟨k, b⟩ := c
    have hm' := Memory.wfFrom_cons.mp hm
    simp only [Memory.write]
    split
    · next hak =>
      split
      · exact hm
      · next hv =>
        exact Memory.wfFrom_cons.mpr ⟨hlo, ha, hv, Memory.wfFrom_cons.mpr ⟨by omega, hm'.2⟩⟩
    · split
      · next hak =>
        subst hak
        split
        · exact Memory.wfFrom_mono (by omega) hm'.2.2.2
        · next hv => exact Memory.wfFrom_cons.mpr ⟨hlo, ha, hv, hm'.2.2.2⟩
      · exact Memory.wfFrom_cons.mpr ⟨hm'.1, hm'.2.1, hm'.2.2.1, ih hm'.2.2.2 (by omega)⟩

/-- A write to an address that exists keeps the canonical form. -/
theorem Memory.wf_write {m : Memory} {a : Nat} {v : Byte} (hm : m.wf = true) (ha : a < 4096) : (m.write a v).wf = true :=
  Memory.wfFrom_write hm (Nat.zero_le a) ha

/-! ## Read after write -/

/-- A write leaves every other address alone. -/
theorem Memory.read_write_of_ne {m : Memory} {a a' : Nat} {v : Byte} (h : a' ≠ a) : (m.write a v).read a' = m.read a' := by
  induction m with
  | nil =>
    simp only [Memory.write]
    split <;> simp [Memory.read, h]
  | cons c m ih =>
    obtain ⟨k, b⟩ := c
    simp only [Memory.write]
    split
    · split <;> simp [Memory.read, h]
    · split
      · next hak =>
        subst hak
        split <;> simp [Memory.read, h]
      · simp only [Memory.read, ih]

theorem Memory.read_writeFrom_self {lo a : Nat} {v : Byte} {m : Memory} (hm : Memory.wfFrom lo m = true) :
    (m.write a v).read a = v := by
  induction m generalizing lo with
  | nil =>
    simp only [Memory.write]
    split
    · next hv => simp [Memory.read, hv]
    · simp [Memory.read]
  | cons c m ih =>
    obtain ⟨k, b⟩ := c
    have hm' := Memory.wfFrom_cons.mp hm
    simp only [Memory.write]
    split
    · next hak =>
      split
      · next hv =>
        rw [hv]
        exact Memory.read_below (lo := k) (Memory.wfFrom_cons.mpr ⟨Nat.le_refl k, hm'.2⟩) hak
      · simp [Memory.read]
    · split
      · next hak =>
        subst hak
        split
        · next hv =>
          rw [hv]
          exact Memory.read_below hm'.2.2.2 (by omega)
        · simp [Memory.read]
      · next hne =>
        simp only [Memory.read, hne, if_false]
        exact ih hm'.2.2.2

/-- A read after a write to the same address gives the byte written. -/
theorem Memory.read_write_self {m : Memory} {a : Nat} {v : Byte} (hm : m.wf = true) : (m.write a v).read a = v :=
  Memory.read_writeFrom_self hm

/-! ## Ranges -/

@[simp] theorem rangeOk_iff {base n : Nat} : rangeOk base n = true ↔ n = 0 ∨ base + n ≤ 4096 := by
  simp [rangeOk, Config.memSize]

@[simp] theorem Memory.length_readList {m : Memory} {base n : Nat} : (m.readList base n).length = n := by
  induction n generalizing base with
  | zero => rfl
  | succ n ih => simp [Memory.readList, ih]

theorem Memory.getElem_readList {m : Memory} {base n k : Nat} (h : k < (m.readList base n).length) :
    (m.readList base n)[k] = m.read (base + k) := by
  induction n generalizing base k with
  | zero => simp [Memory.readList] at h
  | succ n ih =>
    cases k with
    | zero => simp [Memory.readList]
    | succ k =>
      simp only [Memory.readList, List.getElem_cons_succ]
      rw [ih, Nat.add_assoc, Nat.add_comm 1 k]

/-- All that reading a range can do. -/
theorem Memory.readRange_eq_some {m : Memory} {base n : Nat} {bytes : List Byte} :
    m.readRange base n = some bytes ↔ (n = 0 ∨ base + n ≤ 4096) ∧ bytes = m.readList base n := by
  unfold Memory.readRange
  split
  · next h => simp [rangeOk_iff.mp h, eq_comm]
  · next h => simp [show ¬(n = 0 ∨ base + n ≤ 4096) from fun hc => h (rangeOk_iff.mpr hc)]

theorem Memory.readRange_eq_none {m : Memory} {base n : Nat} :
    m.readRange base n = none ↔ n ≠ 0 ∧ 4096 < base + n := by
  unfold Memory.readRange
  split
  · next h => have := rangeOk_iff.mp h; simp only [reduceCtorEq, false_iff]; omega
  · next h => have : ¬(n = 0 ∨ base + n ≤ 4096) := fun hc => h (rangeOk_iff.mpr hc); simp only [true_iff]; omega

theorem Memory.writeList_wf {m : Memory} {base : Nat} {bytes : List Byte} (hm : m.wf = true)
    (h : bytes = [] ∨ base + bytes.length ≤ 4096) : (m.writeList base bytes).wf = true := by
  induction bytes generalizing m base with
  | nil => exact hm
  | cons b bs ih =>
    have h' : base + (bs.length + 1) ≤ 4096 := by simpa using h
    exact ih (Memory.wf_write hm (by omega)) (by omega)

/-- Storing a range leaves every address outside it alone. -/
theorem Memory.read_writeList_outside {m : Memory} {base a : Nat} {bytes : List Byte}
    (h : a < base ∨ base + bytes.length ≤ a) : (m.writeList base bytes).read a = m.read a := by
  induction bytes generalizing m base with
  | nil => rfl
  | cons b bs ih =>
    simp only [List.length_cons] at h
    simp only [Memory.writeList]
    rw [ih (by omega), Memory.read_write_of_ne (by omega)]

/-- Storing a range stores each byte at its own address. -/
theorem Memory.read_writeList_inside {m : Memory} {base k : Nat} {bytes : List Byte} (hm : m.wf = true)
    (hb : base + bytes.length ≤ 4096) (h : k < bytes.length) : (m.writeList base bytes).read (base + k) = bytes[k] := by
  induction bytes generalizing m base k with
  | nil => simp at h
  | cons b bs ih =>
    simp only [List.length_cons] at h hb
    simp only [Memory.writeList]
    cases k with
    | zero =>
      rw [Memory.read_writeList_outside (by omega)]
      simpa using Memory.read_write_self hm
    | succ k =>
      have := ih (m := m.write base b) (base := base + 1) (k := k) (Memory.wf_write hm (by omega)) (by omega) (by omega)
      simpa [Nat.add_assoc, Nat.add_comm 1 k] using this

/-- All that storing a range can do. -/
theorem Memory.writeRange_eq_some {m m' : Memory} {base : Nat} {bytes : List Byte} :
    m.writeRange base bytes = some m' ↔ (bytes.length = 0 ∨ base + bytes.length ≤ 4096) ∧ m' = m.writeList base bytes := by
  unfold Memory.writeRange
  split
  · next h => exact ⟨fun e => ⟨rangeOk_iff.mp h, (Option.some.inj e).symm⟩, fun e => by rw [e.2]⟩
  · next h => simp only [reduceCtorEq, false_iff]; exact fun hc => h (rangeOk_iff.mpr hc.1)

theorem Memory.writeRange_eq_none {m : Memory} {base : Nat} {bytes : List Byte} :
    m.writeRange base bytes = none ↔ bytes.length ≠ 0 ∧ 4096 < base + bytes.length := by
  unfold Memory.writeRange
  split
  · next h => have := rangeOk_iff.mp h; simp only [reduceCtorEq, false_iff]; omega
  · next h =>
    have : ¬(bytes.length = 0 ∨ base + bytes.length ≤ 4096) := fun hc => h (rangeOk_iff.mpr hc)
    simp only [true_iff]; omega

end Sys2Proof.Machine
end

