-- ==== Sys2Proof/Laws/State.lean ====
section
/-! SUPPORT. One lemma per field per update of the state, so that no later proof unfolds a record update, and the laws of
the register file. -/

namespace Sys2Proof.Machine

/-! ### `setReg` -/

@[simp] theorem State.setReg_i (s : State) (x : Reg) (b : Byte) : (s.setReg x b).i = s.i := rfl
@[simp] theorem State.setReg_pc (s : State) (x : Reg) (b : Byte) : (s.setReg x b).pc = s.pc := rfl
@[simp] theorem State.setReg_stack (s : State) (x : Reg) (b : Byte) : (s.setReg x b).stack = s.stack := rfl
@[simp] theorem State.setReg_sp (s : State) (x : Reg) (b : Byte) : (s.setReg x b).sp = s.sp := rfl
@[simp] theorem State.setReg_mem (s : State) (x : Reg) (b : Byte) : (s.setReg x b).mem = s.mem := rfl
@[simp] theorem State.setReg_dt (s : State) (x : Reg) (b : Byte) : (s.setReg x b).dt = s.dt := rfl
@[simp] theorem State.setReg_st (s : State) (x : Reg) (b : Byte) : (s.setReg x b).st = s.st := rfl
@[simp] theorem State.setReg_disp (s : State) (x : Reg) (b : Byte) : (s.setReg x b).disp = s.disp := rfl
@[simp] theorem State.setReg_inputMask (s : State) (x : Reg) (b : Byte) : (s.setReg x b).inputMask = s.inputMask := rfl
@[simp] theorem State.setReg_prevMask (s : State) (x : Reg) (b : Byte) : (s.setReg x b).prevMask = s.prevMask := rfl
@[simp] theorem State.setReg_fault (s : State) (x : Reg) (b : Byte) : (s.setReg x b).fault = s.fault := rfl
@[simp] theorem State.setReg_draws (s : State) (x : Reg) (b : Byte) : (s.setReg x b).draws = s.draws := rfl

/-! ### `setI` -/

@[simp] theorem State.setI_v (s : State) (w : Word) : (s.setI w).v = s.v := rfl
@[simp] theorem State.setI_i (s : State) (w : Word) : (s.setI w).i = w := rfl
@[simp] theorem State.setI_pc (s : State) (w : Word) : (s.setI w).pc = s.pc := rfl
@[simp] theorem State.setI_stack (s : State) (w : Word) : (s.setI w).stack = s.stack := rfl
@[simp] theorem State.setI_sp (s : State) (w : Word) : (s.setI w).sp = s.sp := rfl
@[simp] theorem State.setI_mem (s : State) (w : Word) : (s.setI w).mem = s.mem := rfl
@[simp] theorem State.setI_dt (s : State) (w : Word) : (s.setI w).dt = s.dt := rfl
@[simp] theorem State.setI_st (s : State) (w : Word) : (s.setI w).st = s.st := rfl
@[simp] theorem State.setI_disp (s : State) (w : Word) : (s.setI w).disp = s.disp := rfl
@[simp] theorem State.setI_inputMask (s : State) (w : Word) : (s.setI w).inputMask = s.inputMask := rfl
@[simp] theorem State.setI_prevMask (s : State) (w : Word) : (s.setI w).prevMask = s.prevMask := rfl
@[simp] theorem State.setI_fault (s : State) (w : Word) : (s.setI w).fault = s.fault := rfl
@[simp] theorem State.setI_draws (s : State) (w : Word) : (s.setI w).draws = s.draws := rfl
@[simp] theorem State.setI_reg (s : State) (w : Word) (r : Reg) : (s.setI w).reg r = s.reg r := rfl

/-! ### `setPc` -/

@[simp] theorem State.setPc_v (s : State) (w : Word) : (s.setPc w).v = s.v := rfl
@[simp] theorem State.setPc_i (s : State) (w : Word) : (s.setPc w).i = s.i := rfl
@[simp] theorem State.setPc_pc (s : State) (w : Word) : (s.setPc w).pc = w := rfl
@[simp] theorem State.setPc_stack (s : State) (w : Word) : (s.setPc w).stack = s.stack := rfl
@[simp] theorem State.setPc_sp (s : State) (w : Word) : (s.setPc w).sp = s.sp := rfl
@[simp] theorem State.setPc_mem (s : State) (w : Word) : (s.setPc w).mem = s.mem := rfl
@[simp] theorem State.setPc_dt (s : State) (w : Word) : (s.setPc w).dt = s.dt := rfl
@[simp] theorem State.setPc_st (s : State) (w : Word) : (s.setPc w).st = s.st := rfl
@[simp] theorem State.setPc_disp (s : State) (w : Word) : (s.setPc w).disp = s.disp := rfl
@[simp] theorem State.setPc_inputMask (s : State) (w : Word) : (s.setPc w).inputMask = s.inputMask := rfl
@[simp] theorem State.setPc_prevMask (s : State) (w : Word) : (s.setPc w).prevMask = s.prevMask := rfl
@[simp] theorem State.setPc_fault (s : State) (w : Word) : (s.setPc w).fault = s.fault := rfl
@[simp] theorem State.setPc_draws (s : State) (w : Word) : (s.setPc w).draws = s.draws := rfl
@[simp] theorem State.setPc_reg (s : State) (w : Word) (r : Reg) : (s.setPc w).reg r = s.reg r := rfl

/-! ### `setDt` -/

@[simp] theorem State.setDt_v (s : State) (b : Byte) : (s.setDt b).v = s.v := rfl
@[simp] theorem State.setDt_i (s : State) (b : Byte) : (s.setDt b).i = s.i := rfl
@[simp] theorem State.setDt_pc (s : State) (b : Byte) : (s.setDt b).pc = s.pc := rfl
@[simp] theorem State.setDt_stack (s : State) (b : Byte) : (s.setDt b).stack = s.stack := rfl
@[simp] theorem State.setDt_sp (s : State) (b : Byte) : (s.setDt b).sp = s.sp := rfl
@[simp] theorem State.setDt_mem (s : State) (b : Byte) : (s.setDt b).mem = s.mem := rfl
@[simp] theorem State.setDt_dt (s : State) (b : Byte) : (s.setDt b).dt = b := rfl
@[simp] theorem State.setDt_st (s : State) (b : Byte) : (s.setDt b).st = s.st := rfl
@[simp] theorem State.setDt_disp (s : State) (b : Byte) : (s.setDt b).disp = s.disp := rfl
@[simp] theorem State.setDt_inputMask (s : State) (b : Byte) : (s.setDt b).inputMask = s.inputMask := rfl
@[simp] theorem State.setDt_prevMask (s : State) (b : Byte) : (s.setDt b).prevMask = s.prevMask := rfl
@[simp] theorem State.setDt_fault (s : State) (b : Byte) : (s.setDt b).fault = s.fault := rfl
@[simp] theorem State.setDt_draws (s : State) (b : Byte) : (s.setDt b).draws = s.draws := rfl
@[simp] theorem State.setDt_reg (s : State) (b : Byte) (r : Reg) : (s.setDt b).reg r = s.reg r := rfl

/-! ### `setSt` -/

@[simp] theorem State.setSt_v (s : State) (b : Byte) : (s.setSt b).v = s.v := rfl
@[simp] theorem State.setSt_i (s : State) (b : Byte) : (s.setSt b).i = s.i := rfl
@[simp] theorem State.setSt_pc (s : State) (b : Byte) : (s.setSt b).pc = s.pc := rfl
@[simp] theorem State.setSt_stack (s : State) (b : Byte) : (s.setSt b).stack = s.stack := rfl
@[simp] theorem State.setSt_sp (s : State) (b : Byte) : (s.setSt b).sp = s.sp := rfl
@[simp] theorem State.setSt_mem (s : State) (b : Byte) : (s.setSt b).mem = s.mem := rfl
@[simp] theorem State.setSt_dt (s : State) (b : Byte) : (s.setSt b).dt = s.dt := rfl
@[simp] theorem State.setSt_st (s : State) (b : Byte) : (s.setSt b).st = b := rfl
@[simp] theorem State.setSt_disp (s : State) (b : Byte) : (s.setSt b).disp = s.disp := rfl
@[simp] theorem State.setSt_inputMask (s : State) (b : Byte) : (s.setSt b).inputMask = s.inputMask := rfl
@[simp] theorem State.setSt_prevMask (s : State) (b : Byte) : (s.setSt b).prevMask = s.prevMask := rfl
@[simp] theorem State.setSt_fault (s : State) (b : Byte) : (s.setSt b).fault = s.fault := rfl
@[simp] theorem State.setSt_draws (s : State) (b : Byte) : (s.setSt b).draws = s.draws := rfl
@[simp] theorem State.setSt_reg (s : State) (b : Byte) (r : Reg) : (s.setSt b).reg r = s.reg r := rfl

/-! ### `setMem` -/

@[simp] theorem State.setMem_v (s : State) (m : Memory) : (s.setMem m).v = s.v := rfl
@[simp] theorem State.setMem_i (s : State) (m : Memory) : (s.setMem m).i = s.i := rfl
@[simp] theorem State.setMem_pc (s : State) (m : Memory) : (s.setMem m).pc = s.pc := rfl
@[simp] theorem State.setMem_stack (s : State) (m : Memory) : (s.setMem m).stack = s.stack := rfl
@[simp] theorem State.setMem_sp (s : State) (m : Memory) : (s.setMem m).sp = s.sp := rfl
@[simp] theorem State.setMem_mem (s : State) (m : Memory) : (s.setMem m).mem = m := rfl
@[simp] theorem State.setMem_dt (s : State) (m : Memory) : (s.setMem m).dt = s.dt := rfl
@[simp] theorem State.setMem_st (s : State) (m : Memory) : (s.setMem m).st = s.st := rfl
@[simp] theorem State.setMem_disp (s : State) (m : Memory) : (s.setMem m).disp = s.disp := rfl
@[simp] theorem State.setMem_inputMask (s : State) (m : Memory) : (s.setMem m).inputMask = s.inputMask := rfl
@[simp] theorem State.setMem_prevMask (s : State) (m : Memory) : (s.setMem m).prevMask = s.prevMask := rfl
@[simp] theorem State.setMem_fault (s : State) (m : Memory) : (s.setMem m).fault = s.fault := rfl
@[simp] theorem State.setMem_draws (s : State) (m : Memory) : (s.setMem m).draws = s.draws := rfl
@[simp] theorem State.setMem_reg (s : State) (m : Memory) (r : Reg) : (s.setMem m).reg r = s.reg r := rfl

/-! ### `setDisp` -/

@[simp] theorem State.setDisp_v (s : State) (d : Display) : (s.setDisp d).v = s.v := rfl
@[simp] theorem State.setDisp_i (s : State) (d : Display) : (s.setDisp d).i = s.i := rfl
@[simp] theorem State.setDisp_pc (s : State) (d : Display) : (s.setDisp d).pc = s.pc := rfl
@[simp] theorem State.setDisp_stack (s : State) (d : Display) : (s.setDisp d).stack = s.stack := rfl
@[simp] theorem State.setDisp_sp (s : State) (d : Display) : (s.setDisp d).sp = s.sp := rfl
@[simp] theorem State.setDisp_mem (s : State) (d : Display) : (s.setDisp d).mem = s.mem := rfl
@[simp] theorem State.setDisp_dt (s : State) (d : Display) : (s.setDisp d).dt = s.dt := rfl
@[simp] theorem State.setDisp_st (s : State) (d : Display) : (s.setDisp d).st = s.st := rfl
@[simp] theorem State.setDisp_disp (s : State) (d : Display) : (s.setDisp d).disp = d := rfl
@[simp] theorem State.setDisp_inputMask (s : State) (d : Display) : (s.setDisp d).inputMask = s.inputMask := rfl
@[simp] theorem State.setDisp_prevMask (s : State) (d : Display) : (s.setDisp d).prevMask = s.prevMask := rfl
@[simp] theorem State.setDisp_fault (s : State) (d : Display) : (s.setDisp d).fault = s.fault := rfl
@[simp] theorem State.setDisp_draws (s : State) (d : Display) : (s.setDisp d).draws = s.draws := rfl
@[simp] theorem State.setDisp_reg (s : State) (d : Display) (r : Reg) : (s.setDisp d).reg r = s.reg r := rfl

/-! ### `countDraw` -/

@[simp] theorem State.countDraw_v (s : State) : (s.countDraw).v = s.v := rfl
@[simp] theorem State.countDraw_i (s : State) : (s.countDraw).i = s.i := rfl
@[simp] theorem State.countDraw_pc (s : State) : (s.countDraw).pc = s.pc := rfl
@[simp] theorem State.countDraw_stack (s : State) : (s.countDraw).stack = s.stack := rfl
@[simp] theorem State.countDraw_sp (s : State) : (s.countDraw).sp = s.sp := rfl
@[simp] theorem State.countDraw_mem (s : State) : (s.countDraw).mem = s.mem := rfl
@[simp] theorem State.countDraw_dt (s : State) : (s.countDraw).dt = s.dt := rfl
@[simp] theorem State.countDraw_st (s : State) : (s.countDraw).st = s.st := rfl
@[simp] theorem State.countDraw_disp (s : State) : (s.countDraw).disp = s.disp := rfl
@[simp] theorem State.countDraw_inputMask (s : State) : (s.countDraw).inputMask = s.inputMask := rfl
@[simp] theorem State.countDraw_prevMask (s : State) : (s.countDraw).prevMask = s.prevMask := rfl
@[simp] theorem State.countDraw_fault (s : State) : (s.countDraw).fault = s.fault := rfl
@[simp] theorem State.countDraw_draws (s : State) : (s.countDraw).draws = s.draws + 1 := rfl
@[simp] theorem State.countDraw_reg (s : State) (r : Reg) : (s.countDraw).reg r = s.reg r := rfl

/-! ### `enterFault` -/

@[simp] theorem State.enterFault_v (s : State) (c : FaultCode) : (s.enterFault c).v = s.v := rfl
@[simp] theorem State.enterFault_i (s : State) (c : FaultCode) : (s.enterFault c).i = s.i := rfl
@[simp] theorem State.enterFault_pc (s : State) (c : FaultCode) : (s.enterFault c).pc = s.pc := rfl
@[simp] theorem State.enterFault_stack (s : State) (c : FaultCode) : (s.enterFault c).stack = s.stack := rfl
@[simp] theorem State.enterFault_sp (s : State) (c : FaultCode) : (s.enterFault c).sp = s.sp := rfl
@[simp] theorem State.enterFault_mem (s : State) (c : FaultCode) : (s.enterFault c).mem = s.mem := rfl
@[simp] theorem State.enterFault_dt (s : State) (c : FaultCode) : (s.enterFault c).dt = s.dt := rfl
@[simp] theorem State.enterFault_st (s : State) (c : FaultCode) : (s.enterFault c).st = s.st := rfl
@[simp] theorem State.enterFault_disp (s : State) (c : FaultCode) : (s.enterFault c).disp = s.disp := rfl
@[simp] theorem State.enterFault_inputMask (s : State) (c : FaultCode) : (s.enterFault c).inputMask = s.inputMask := rfl
@[simp] theorem State.enterFault_prevMask (s : State) (c : FaultCode) : (s.enterFault c).prevMask = s.prevMask := rfl
@[simp] theorem State.enterFault_fault (s : State) (c : FaultCode) : (s.enterFault c).fault = c := rfl
@[simp] theorem State.enterFault_draws (s : State) (c : FaultCode) : (s.enterFault c).draws = s.draws := rfl
@[simp] theorem State.enterFault_reg (s : State) (c : FaultCode) (r : Reg) : (s.enterFault c).reg r = s.reg r := rfl

/-! ### `advance` -/

@[simp] theorem State.advance_v (s : State) : (s.advance).v = s.v := rfl
@[simp] theorem State.advance_i (s : State) : (s.advance).i = s.i := rfl
@[simp] theorem State.advance_pc (s : State) : (s.advance).pc = s.pc + 2#16 := rfl
@[simp] theorem State.advance_stack (s : State) : (s.advance).stack = s.stack := rfl
@[simp] theorem State.advance_sp (s : State) : (s.advance).sp = s.sp := rfl
@[simp] theorem State.advance_mem (s : State) : (s.advance).mem = s.mem := rfl
@[simp] theorem State.advance_dt (s : State) : (s.advance).dt = s.dt := rfl
@[simp] theorem State.advance_st (s : State) : (s.advance).st = s.st := rfl
@[simp] theorem State.advance_disp (s : State) : (s.advance).disp = s.disp := rfl
@[simp] theorem State.advance_inputMask (s : State) : (s.advance).inputMask = s.inputMask := rfl
@[simp] theorem State.advance_prevMask (s : State) : (s.advance).prevMask = s.prevMask := rfl
@[simp] theorem State.advance_fault (s : State) : (s.advance).fault = s.fault := rfl
@[simp] theorem State.advance_draws (s : State) : (s.advance).draws = s.draws := rfl
@[simp] theorem State.advance_reg (s : State) (r : Reg) : (s.advance).reg r = s.reg r := rfl

/-! ### `tail` -/

@[simp] theorem State.tail_v (s : State) : (s.tail).v = s.v := rfl
@[simp] theorem State.tail_i (s : State) : (s.tail).i = s.i := rfl
@[simp] theorem State.tail_pc (s : State) : (s.tail).pc = s.pc := rfl
@[simp] theorem State.tail_stack (s : State) : (s.tail).stack = s.stack := rfl
@[simp] theorem State.tail_sp (s : State) : (s.tail).sp = s.sp := rfl
@[simp] theorem State.tail_mem (s : State) : (s.tail).mem = s.mem := rfl
@[simp] theorem State.tail_dt (s : State) : (s.tail).dt = tick s.dt := rfl
@[simp] theorem State.tail_st (s : State) : (s.tail).st = tick s.st := rfl
@[simp] theorem State.tail_disp (s : State) : (s.tail).disp = s.disp := rfl
@[simp] theorem State.tail_inputMask (s : State) : (s.tail).inputMask = s.inputMask := rfl
@[simp] theorem State.tail_prevMask (s : State) : (s.tail).prevMask = s.inputMask := rfl
@[simp] theorem State.tail_fault (s : State) : (s.tail).fault = s.fault := rfl
@[simp] theorem State.tail_draws (s : State) : (s.tail).draws = s.draws := rfl
@[simp] theorem State.tail_reg (s : State) (r : Reg) : (s.tail).reg r = s.reg r := rfl

/-! ### The register file -/

theorem State.reg_setReg (s : State) (x r : Reg) (b : Byte) : (s.setReg x b).reg r = if r = x then b else s.reg r := by
  unfold State.reg State.setReg
  rw [Vector.getElem_set]
  have key : x.toNat = r.toNat ↔ r = x := ⟨fun h => (BitVec.eq_of_toNat_eq h).symm, fun h => by rw [h]⟩
  simp only [key]

@[simp] theorem State.reg_setReg_self (s : State) (x : Reg) (b : Byte) : (s.setReg x b).reg x = b := by
  simp [State.reg_setReg]

theorem State.reg_setReg_of_ne {s : State} {x r : Reg} {b : Byte} (h : r ≠ x) : (s.setReg x b).reg r = s.reg r := by
  simp [State.reg_setReg, h]

/-! ### The composite updates -/

/-- What writing a flag does: `VF` takes it, nothing else changes. -/
theorem State.setFlag_eq (s : State) (f : Bool) : s.setFlag f = s.setReg VF (flagByte f) := rfl

/-- What writing a result and then a flag does. -/
theorem State.setRegFlag_eq (s : State) (x : Reg) (b : Byte) (f : Bool) :
    s.setRegFlag x b f = (s.setReg x b).setReg VF (flagByte f) := rfl

/-- What writing a drawn value does. -/
theorem State.setRegDrawn_eq (s : State) (x : Reg) (b : Byte) : s.setRegDrawn x b = (s.setReg x b).countDraw := rfl

/-- A skip changes `pc` only, and only when its condition holds. -/
theorem State.skipIf_eq (s : State) (c : Bool) : s.skipIf c = s.setPc (if c then s.pc + 2#16 else s.pc) := by
  cases c <;> rfl

/-- A state is its own `setPc`. -/
@[simp] theorem State.setPc_setPc (s : State) (w w' : Word) : (s.setPc w).setPc w' = s.setPc w' := rfl

@[simp] theorem State.setPc_self (s : State) : s.setPc s.pc = s := rfl

/-- Taking the advance back gives the state at the start of the cycle again. -/
@[simp] theorem State.advance_back (s : State) : s.advance.setPc (s.advance.pc - 2#16) = s := by
  simp [State.advance]

/-- A handler that raises leaves the state at the start of the cycle with the latch set. -/
@[simp] theorem State.raise_advance (s : State) (c : FaultCode) : s.advance.raise c = .next (s.enterFault c) := by
  simp only [State.raise, State.advance_back]

/-- The end of a cycle whose handler did not fault. -/
theorem State.finish_running {t : State} (h : t.fault = .noFault) : t.finish = t.tail := by simp [State.finish, h]

/-- The end of a cycle whose handler faulted. -/
theorem State.finish_faulted {t : State} (h : t.fault ≠ .noFault) : t.finish = t := by simp [State.finish, h]

end Sys2Proof.Machine
end

