-- ==== Sys2Proof/Laws/Ops.lean ====
section
/-! SUPPORT. One lemma per shared operation that says everything it can do. -/

namespace Sys2Proof.Machine

/-! ## The return stack -/

/-- All that a push can do when an entry is free. -/
theorem State.push_of_lt {s : State} {ret : Word} (h : s.sp.val < 16) :
    ∃ t, s.push ret = some t ∧ t.sp.val = s.sp.val + 1 ∧ t.stack = s.stack.set s.sp.val ret h ∧
      t = { s with sp := t.sp, stack := t.stack } := by
  simp only [State.push, h, dif_pos]
  exact ⟨_, rfl, rfl, rfl, rfl⟩

theorem State.push_of_full {s : State} {ret : Word} (h : s.sp.val = 16) : s.push ret = none := by
  simp [State.push, h]

/-- All that a pop can do when an entry is live. -/
theorem State.pop_of_pos {s : State} (h : 0 < s.sp.val) :
    ∃ t, s.pop = some (s.stack[s.sp.val - 1]'(by omega), t) ∧ t.sp.val = s.sp.val - 1 ∧ t = { s with sp := t.sp } := by
  simp only [State.pop, h, dif_pos]
  exact ⟨_, rfl, rfl, rfl⟩

theorem State.pop_of_empty {s : State} (h : s.sp.val = 0) : s.pop = none := by
  simp [State.pop, h]

/-! ## Blocks of registers -/

@[simp] theorem State.length_regsUpTo {s : State} {x : Reg} : (s.regsUpTo x).length = x.toNat + 1 := by
  simp [State.regsUpTo]

theorem State.getElem_regsUpTo {s : State} {x : Reg} {k : Nat} (h : k < (s.regsUpTo x).length) :
    (s.regsUpTo x)[k] = s.reg (BitVec.ofNat 4 k) := by
  simp [State.regsUpTo]

/-- Loading registers changes registers only. -/
theorem State.setRegsFrom_eq {s : State} {k : Nat} {bytes : List Byte} :
    s.setRegsFrom k bytes = { s with v := (s.setRegsFrom k bytes).v } := by
  induction bytes generalizing s k with
  | nil => rfl
  | cons b bs ih =>
    simp only [State.setRegsFrom]
    rw [ih]
    rfl

/-- A register outside the loaded ones keeps its value, and a loaded one takes its byte. -/
theorem State.reg_setRegsFrom {s : State} {k : Nat} {bytes : List Byte} {r : Reg} (hk : k + bytes.length ≤ 16) :
    (s.setRegsFrom k bytes).reg r =
      if h : k ≤ r.toNat ∧ r.toNat < k + bytes.length then bytes[r.toNat - k]'(by omega) else s.reg r := by
  induction bytes generalizing s k with
  | nil => simp [State.setRegsFrom]
  | cons b bs ih =>
    simp only [List.length_cons] at hk
    simp only [State.setRegsFrom, List.length_cons]
    rw [ih (by omega)]
    have hnum : (BitVec.ofNat 4 k).toNat = k := by simp; omega
    by_cases hr : k + 1 ≤ r.toNat ∧ r.toNat < k + 1 + bs.length
    · rw [dif_pos hr, dif_pos (by omega)]
      simp only [show r.toNat - k = (r.toNat - (k + 1)) + 1 by omega, List.getElem_cons_succ]
    · rw [dif_neg hr, State.reg_setReg]
      by_cases hrk : r.toNat = k
      · rw [if_pos (BitVec.eq_of_toNat_eq (by rw [hnum, hrk])), dif_pos (by omega)]
        simp [hrk]
      · rw [if_neg (fun h => hrk (by rw [h, hnum])), dif_neg (by omega)]

/-! ## The comparison of the key masks -/

/-- All that the comparison of the two masks can answer. -/
theorem keyChange_cases (a b : Word) :
    (a = b ∧ keyChange a b = .unchanged) ∨
    (∃ k, k < 16 ∧ a ^^^ b = BitVec.twoPow 16 k ∧ keyChange a b = .single (BitVec.ofNat 8 k)) ∨
    (a ≠ b ∧ (∀ k, k < 16 → a ^^^ b ≠ BitVec.twoPow 16 k) ∧ keyChange a b = .several) := by
  unfold keyChange
  by_cases h : a ^^^ b = 0#16
  · left
    exact ⟨BitVec.xor_eq_zero_iff.mp h, by simp [h]⟩
  · right
    simp only [h, if_false]
    cases hf : (List.range 16).find? (fun k => a ^^^ b == BitVec.twoPow 16 k) with
    | some k =>
      left
      have hk := List.find?_some hf
      have hm := List.mem_of_find?_eq_some hf
      exact ⟨k, by simpa using hm, by simpa using hk, rfl⟩
    | none =>
      right
      refine ⟨fun hab => h (by simp [hab]), ?_, rfl⟩
      intro k hk hx
      have := List.find?_eq_none.mp hf k (by simpa using hk)
      simp [hx] at this

/-! ## The pixels of a sprite -/

/-- The pixel formula reduces rows and columns independently (45_random_draw.md R152). -/
theorem pixelIndex_eq (sx sy r b : Nat) : pixelIndex sx sy r b = (sy + r) % 32 * 64 + (sx + b) % 64 := by
  unfold pixelIndex
  omega

theorem pixelIndex_lt (sx sy r b : Nat) : pixelIndex sx sy r b < 2048 := Nat.mod_lt _ (by omega)

theorem mem_rowPixels {sx sy r p : Nat} {row : Byte} :
    p ∈ rowPixels sx sy r row ↔ ∃ b, b < 8 ∧ row.getLsbD (7 - b) = true ∧ p = pixelIndex sx sy r b := by
  unfold rowPixels
  simp only [List.mem_map, List.mem_filter]
  constructor
  · rintro ⟨b, ⟨hb, hbit⟩, rfl⟩
    refine ⟨b, ?_, hbit, rfl⟩
    simp at hb
    omega
  · rintro ⟨b, hb, hbit, rfl⟩
    refine ⟨b, ⟨?_, hbit⟩, rfl⟩
    simp
    omega

theorem mem_spritePixels {sx sy r p : Nat} {rows : List Byte} :
    p ∈ spritePixels sx sy r rows ↔
      ∃ k b, ∃ h : k < rows.length, b < 8 ∧ rows[k].getLsbD (7 - b) = true ∧ p = pixelIndex sx sy (r + k) b := by
  induction rows generalizing r with
  | nil => simp [spritePixels]
  | cons row rows ih =>
    simp only [spritePixels, List.mem_append, mem_rowPixels, ih]
    constructor
    · rintro (⟨b, hb, hbit, rfl⟩ | ⟨k, b, hk, hb, hbit, rfl⟩)
      · exact ⟨0, b, by simp, hb, by simpa using hbit, rfl⟩
      · refine ⟨k + 1, b, by simpa using hk, hb, by simpa using hbit, ?_⟩
        rw [Nat.add_assoc, Nat.add_comm 1 k]
    · rintro ⟨k, b, hk, hb, hbit, rfl⟩
      cases k with
      | zero => exact .inl ⟨b, hb, by simpa using hbit, rfl⟩
      | succ k =>
        refine .inr ⟨k, b, by simpa using hk, hb, by simpa using hbit, ?_⟩
        rw [Nat.add_assoc, Nat.add_comm 1 k]

end Sys2Proof.Machine
end

