-- ==== Sys2Proof/Laws/Step.lean ====
section
/-! SUPPORT. What a fetch and a step can do. -/

namespace Sys2Proof.Machine

/-- All that a fetch can do. -/
theorem State.fetchWord_eq_some {s : State} {w : Word} :
    s.fetchWord = some w ↔
      s.pc.toNat ≤ 4094 ∧ w = wordOfBytes (s.mem.read s.pc.toNat) (s.mem.read (s.pc.toNat + 1)) := by
  unfold State.fetchWord
  split
  · next h => exact ⟨fun e => ⟨h, (Option.some.inj e).symm⟩, fun e => by rw [e.2]⟩
  · next h => exact ⟨fun e => (nomatch e), fun e => absurd e.1 h⟩

theorem State.fetchWord_eq_none {s : State} : s.fetchWord = none ↔ 4094 < s.pc.toNat := by
  unfold State.fetchWord
  split
  · next h => exact ⟨fun e => (nomatch e), fun e => by omega⟩
  · next h => exact ⟨fun _ => by omega, fun _ => rfl⟩

/-- A halted machine does nothing (40_cycle_driver.md R89). -/
theorem step_of_halted {s : State} (h : s.fault ≠ .noFault) : step s = .next s := by simp [step, h]

/-- A fetch beyond the end of memory (60_exceptions.md R176). -/
theorem step_of_fetch_none {s : State} (h : s.fault = .noFault) (hf : s.fetchWord = none) :
    step s = .next (s.enterFault .fetchRange) := by simp [step, h, hf]

/-- A cycle with a word fetched: the handler on the advanced state, then the end of the cycle. -/
theorem step_of_fetch_some {s : State} {w : Word} (h : s.fault = .noFault) (hf : s.fetchWord = some w) :
    step s = finishOutcome (exec (decodeWord w) s.advance) := by simp [step, h, hf]

/-- All that a step that answers a next state can be. -/
theorem step_cases {s t : State} (h : step s = .next t) :
    (s.fault ≠ .noFault ∧ t = s) ∨
    (s.fault = .noFault ∧ s.fetchWord = none ∧ t = s.enterFault .fetchRange) ∨
    (∃ w u, s.fault = .noFault ∧ s.fetchWord = some w ∧ exec (decodeWord w) s.advance = .next u ∧ t = u.finish) := by
  by_cases hs : s.fault = .noFault
  · cases hf : s.fetchWord with
    | none =>
      rw [step_of_fetch_none hs hf] at h
      exact .inr (.inl ⟨hs, rfl, (Host.Outcome.next.inj h).symm⟩)
    | some w =>
      rw [step_of_fetch_some hs hf] at h
      refine .inr (.inr ⟨w, ?_⟩)
      cases hx : exec (decodeWord w) s.advance with
      | next u =>
        rw [hx] at h
        exact ⟨u, hs, rfl, rfl, (Host.Outcome.next.inj h).symm⟩
      | fault r => exact nomatch r
      | refused r =>
        rw [hx] at h
        exact nomatch h
  · rw [step_of_halted hs] at h
    exact .inl ⟨hs, (Host.Outcome.next.inj h).symm⟩

end Sys2Proof.Machine
end

