-- ==== Sys2Proof/Laws/Exec.lean ====
section
/-! SUPPORT. What a handler can do: the one fault it can raise and exactly when, and otherwise the pieces of state it leaves
alone. The lemmas about a step follow from these by `step_cases`. -/

namespace Sys2Proof.Machine

/-- The fault that a handler raises in a state, and its condition (60_exceptions.md R174, R175, R177). -/
def Raises (i : Instr) (s : State) (c : FaultCode) : Prop :=
  (∃ nnn, i = .call nnn ∧ s.sp.val = 16 ∧ c = .stackOverflow) ∨
  (i = .ret ∧ s.sp.val = 0 ∧ c = .stackUnderflow) ∨
  (dataBytes i ≠ 0 ∧ 4096 < s.i.toNat + dataBytes i ∧ c = .dataRange)

/-- A handler raises one fault at most (60_exceptions.md R178). -/
theorem Raises.unique {i : Instr} {s : State} {c c' : FaultCode} (h : Raises i s c) (h' : Raises i s c') : c = c' := by
  rcases h with ⟨n, rfl, h1, rfl⟩ | ⟨rfl, h1, rfl⟩ | ⟨h1, h2, rfl⟩ <;>
  rcases h' with ⟨n', e, g1, rfl⟩ | ⟨e, g1, rfl⟩ | ⟨g1, g2, rfl⟩ <;> first | rfl | (subst e; exact absurd rfl h1) | exact absurd rfl g1 | cases e

theorem Raises.ne_noFault {i : Instr} {s : State} {c : FaultCode} (h : Raises i s c) : c ≠ .noFault := by
  rcases h with ⟨n, rfl, h1, rfl⟩ | ⟨rfl, h1, rfl⟩ | ⟨h1, h2, rfl⟩ <;> exact nofun

/-- The write set of a handler that does not fault: the pieces of state it may change (10_state.md section 1). -/
def writeSet : Instr → List Field
  | .cls | .drw _ _ _ => [.disp]
  | .ret => [.pc, .sp]
  | .call _ => [.pc, .sp, .stack]
  | .jp _ | .jpV0 _ | .seVxKk _ _ | .sneVxKk _ _ | .seVxVy _ _ _ | .sneVxVy _ _ _ | .skp _ | .sknp _ => [.pc]
  | .ldI _ | .addIVx _ | .ldFVx _ | .ldVxMem _ => [.i]
  | .ldBVx _ => [.mem]
  | .ldMemVx _ => [.mem, .i]
  | .rnd _ _ => [.draws]
  | .ldVxK _ => [.pc, .draws]
  | .ldDtVx _ => [.dt]
  | .ldStVx _ => [.st]
  | .sys _ | .ldVxKk _ _ | .addVxKk _ _ | .ldVxVy _ _ | .orVxVy _ _ | .andVxVy _ _ | .xorVxVy _ _ | .addVxVy _ _
  | .subVxVy _ _ | .shrVx _ _ | .subnVxVy _ _ | .shlVx _ _ | .ldVxDt _ | .nop8 _ _ _ | .nopE _ _ | .nopF _ _ => []

/-- The registers a handler may change: the named destinations, and `VF` in the six flag writers. -/
def regWriteSet (i : Instr) : List Reg :=
  ((List.range 16).map (BitVec.ofNat 4)).filter fun r => namesDest i r || (r == VF && writesFlag i)

theorem mem_regWriteSet {i : Instr} {r : Reg} :
    r ∈ regWriteSet i ↔ (namesDest i r = true ∨ (r = VF ∧ writesFlag i = true)) := by
  have : r ∈ (List.range 16).map (BitVec.ofNat 4) := by
    simp only [List.mem_map, List.mem_range]
    exact ⟨r.toNat, r.isLt, by simp⟩
  simp [regWriteSet, List.mem_filter, this]

theorem frame_setReg {i : Instr} {s : State} {x : Reg} {b : Byte} (h : namesDest i x = true) :
    Frame (regWriteSet i) [] s (s.setReg x b) := by
  simp only [Frame, mem_regWriteSet]
  refine ⟨fun r hr => ?_, by simp⟩
  exact State.reg_setReg_of_ne fun e => hr (.inl (e ▸ h))

theorem frame_setRegFlag {i : Instr} {s : State} {x : Reg} {b : Byte} {f : Bool} (h : namesDest i x = true)
    (hf : writesFlag i = true) : Frame (regWriteSet i) [] s (s.setRegFlag x b f) := by
  simp only [Frame, mem_regWriteSet, State.setRegFlag_eq]
  refine ⟨fun r hr => ?_, by simp⟩
  rw [State.reg_setReg_of_ne fun e => hr (.inr ⟨e, hf⟩)]
  exact State.reg_setReg_of_ne fun e => hr (.inl (e ▸ h))

/-- All that a handler can do: raise the one fault whose condition holds, or answer a next state that differs only in the
instruction's write set. -/
theorem exec_cases (i : Instr) (s : State) :
    (∃ c, Raises i s c ∧ exec i s = s.raise c) ∨
    (∃ t, (∀ c, ¬Raises i s c) ∧ exec i s = .next t ∧ Frame (regWriteSet i) (writeSet i) s t) := by
  cases i
  case cls => exact .inr ⟨_, by simp [Raises, dataBytes], rfl, by simp [Frame, writeSet]⟩
  case ret =>
    by_cases h : s.sp.val = 0
    · exact .inl ⟨.stackUnderflow, .inr (.inl ⟨rfl, h, rfl⟩), by simp [exec, execRet, State.pop_of_empty h]⟩
    · obtain ⟨t, h1, -, h3⟩ := State.pop_of_pos (s := s) (by omega)
      refine .inr ⟨_, by simp [Raises, dataBytes]; omega, by simp only [exec, execRet, h1]; rfl, ?_⟩
      rw [h3]; simp [Frame, writeSet, State.reg, State.setPc]
  case call nnn =>
    by_cases h : s.sp.val = 16
    · exact .inl ⟨.stackOverflow, .inl ⟨_, rfl, h, rfl⟩, by simp [exec, execCall, State.push_of_full h]⟩
    · have := s.sp.isLt
      obtain ⟨t, h1, -, -, h4⟩ := State.push_of_lt (s := s) (ret := s.pc) (by omega)
      refine .inr ⟨_, by simp [Raises, dataBytes]; omega, by simp only [exec, execCall, h1]; rfl, ?_⟩
      rw [h4]; simp [Frame, writeSet, State.reg, State.setPc]
  case drw x y n =>
    cases h : s.mem.readRange s.i.toNat n.toNat with
    | none =>
      exact .inl ⟨.dataRange, .inr (.inr ⟨(Memory.readRange_eq_none.mp h).1, (Memory.readRange_eq_none.mp h).2, rfl⟩),
        by simp [exec, execDrw, h]⟩
    | some rows =>
      have hr := (Memory.readRange_eq_some.mp h).1
      refine .inr ⟨_, by simp [Raises, dataBytes]; omega, by simp only [exec, execDrw, h]; rfl, ?_⟩
      simp only [Frame, mem_regWriteSet, State.setFlag_eq]
      refine ⟨fun r hr => ?_, by simp [writeSet]⟩
      rw [State.reg_setReg_of_ne fun e => hr (.inr ⟨e, rfl⟩)]; rfl
  case ldBVx x =>
    cases h : s.mem.writeRange s.i.toNat (decimalDigits (s.reg x)) with
    | none =>
      have hr := Memory.writeRange_eq_none.mp h
      simp only [decimalDigits, List.length_cons, List.length_nil] at hr
      exact .inl ⟨.dataRange, .inr (.inr ⟨by simp [dataBytes], by simp only [dataBytes]; omega, rfl⟩),
        by simp [exec, execLdBVx, h]⟩
    | some m =>
      have hr := (Memory.writeRange_eq_some.mp h).1
      simp only [decimalDigits, List.length_cons, List.length_nil] at hr
      exact .inr ⟨_, by simp [Raises, dataBytes]; omega, by simp only [exec, execLdBVx, h]; rfl, by simp [Frame, writeSet]⟩
  case ldMemVx x =>
    cases h : s.mem.writeRange s.i.toNat (s.regsUpTo x) with
    | none =>
      have hr := Memory.writeRange_eq_none.mp h
      simp only [State.length_regsUpTo] at hr
      exact .inl ⟨.dataRange, .inr (.inr ⟨by simp [dataBytes], by simp only [dataBytes]; omega, rfl⟩),
        by simp [exec, execLdMemVx, h]⟩
    | some m =>
      have hr := (Memory.writeRange_eq_some.mp h).1
      simp only [State.length_regsUpTo] at hr
      exact .inr ⟨_, by simp [Raises, dataBytes]; omega, by simp only [exec, execLdMemVx, h]; rfl, by simp [Frame, writeSet]⟩
  case ldVxMem x =>
    cases h : s.mem.readRange s.i.toNat (x.toNat + 1) with
    | none =>
      have hr := Memory.readRange_eq_none.mp h
      exact .inl ⟨.dataRange, .inr (.inr ⟨by simp [dataBytes], by simp only [dataBytes]; omega, rfl⟩),
        by simp [exec, execLdVxMem, h]⟩
    | some bytes =>
      obtain ⟨hr, rfl⟩ := Memory.readRange_eq_some.mp h
      refine .inr ⟨_, by simp [Raises, dataBytes]; omega, by simp only [exec, execLdVxMem, h]; rfl, ?_⟩
      have hx := x.isLt
      simp only [Frame, mem_regWriteSet, State.setI_reg]
      refine ⟨fun r hr => ?_, by rw [State.setRegsFrom_eq]; simp [writeSet]⟩
      rw [State.reg_setRegsFrom (by simp; omega), dif_neg]
      intro hc
      apply hr
      simp only [Memory.length_readList] at hc
      simp only [namesDest, decide_eq_true_eq]
      omega
  case rnd x kk =>
    refine .inr ⟨_, by simp [Raises, dataBytes], rfl, ?_⟩
    simp only [Frame, mem_regWriteSet, State.setRegDrawn_eq]
    refine ⟨fun r hr => ?_, by simp [writeSet]⟩
    simp only [State.countDraw_reg]
    exact State.reg_setReg_of_ne fun e => hr (.inl (by simp [namesDest, e]))
  case ldVxK x =>
    rcases keyChange_cases s.inputMask s.prevMask with ⟨-, h⟩ | ⟨k, -, -, h⟩ | ⟨-, -, h⟩
    · exact .inr ⟨_, by simp [Raises, dataBytes], by simp only [exec, execLdVxK, h]; rfl, by simp [Frame, writeSet]⟩
    · refine .inr ⟨_, by simp [Raises, dataBytes], by simp only [exec, execLdVxK, h]; rfl, ?_⟩
      simp only [Frame, mem_regWriteSet]
      refine ⟨fun r hr => ?_, by simp [writeSet]⟩
      exact State.reg_setReg_of_ne fun e => hr (.inl (by simp [namesDest, e]))
    · refine .inr ⟨_, by simp [Raises, dataBytes], by simp only [exec, execLdVxK, h]; rfl, ?_⟩
      simp only [Frame, mem_regWriteSet, State.setRegDrawn_eq]
      refine ⟨fun r hr => ?_, by simp [writeSet]⟩
      simp only [State.countDraw_reg]
      exact State.reg_setReg_of_ne fun e => hr (.inl (by simp [namesDest, e]))
  case seVxKk | sneVxKk | seVxVy | sneVxVy | skp | sknp =>
    exact .inr ⟨_, by simp [Raises, dataBytes], rfl, by simp [Frame, writeSet, State.skipIf_eq]⟩
  case sys | nop8 | nopE | nopF | jp | jpV0 | ldI | addIVx | ldFVx | ldDtVx | ldStVx =>
    exact .inr ⟨_, by simp [Raises, dataBytes], rfl, by simp [Frame, writeSet]⟩
  case ldVxKk | addVxKk | ldVxVy | orVxVy | andVxVy | xorVxVy | ldVxDt =>
    exact .inr ⟨_, by simp [Raises, dataBytes], rfl, frame_setReg (by simp [namesDest])⟩
  case addVxVy | subVxVy | shrVx | subnVxVy | shlVx =>
    exact .inr ⟨_, by simp [Raises, dataBytes], rfl, frame_setRegFlag (by simp [namesDest]) rfl⟩

/-- Every handler answers a next state. -/
theorem exec_next (i : Instr) (s : State) : ∃ t, exec i s = .next t := by
  rcases exec_cases i s with ⟨c, -, h⟩ | ⟨t, -, h, -⟩
  · exact ⟨_, h⟩
  · exact ⟨t, h⟩

/-- All that a step of a running machine can do: the fetch faults; or the handler raises and only the latch changes; or the
cycle completes with the handler's writes and then the tail. -/
theorem step_running_cases {s t : State} (hs : s.fault = .noFault) (h : step s = .next t) :
    (4094 < s.pc.toNat ∧ t = s.enterFault .fetchRange) ∨
    (∃ w c, s.fetchWord = some w ∧ Raises (decodeWord w) s c ∧ t = s.enterFault c) ∨
    (∃ w u, s.fetchWord = some w ∧ (∀ c, ¬Raises (decodeWord w) s c) ∧ exec (decodeWord w) s.advance = .next u ∧
      Frame (regWriteSet (decodeWord w)) (writeSet (decodeWord w)) s.advance u ∧ u.fault = .noFault ∧ t = u.tail) := by
  rcases step_cases h with ⟨hf, -⟩ | ⟨-, hw, rfl⟩ | ⟨w, u, -, hw, hx, rfl⟩
  · exact absurd hs hf
  · exact .inl ⟨State.fetchWord_eq_none.mp hw, rfl⟩
  · rcases exec_cases (decodeWord w) s.advance with ⟨c, hc, hr⟩ | ⟨u', hc, hr, hfr⟩
    · rw [State.raise_advance, hx] at hr
      cases Host.Outcome.next.inj hr
      exact .inr (.inl ⟨w, c, hw, hc, State.finish_faulted hc.ne_noFault⟩)
    · rw [hx] at hr
      cases Host.Outcome.next.inj hr
      have hfault : u.fault = .noFault := by
        have := hfr.2.2.2.2.2.2.2.2.2.2.2.1 (by cases decodeWord w <;> simp [writeSet])
        rw [this]; exact hs
      exact .inr (.inr ⟨w, u, hw, hc, hx, hfr, hfault, State.finish_running hfault⟩)

end Sys2Proof.Machine
end

