-- ==== Sys2Proof/Laws/PerInstr.lean ====
section
/-! SUPPORT. A law of every instruction as syntax, one lemma per constructor: its word is one that its own row of the opcode
table takes (30_encoding.md R66). -/

namespace Sys2Proof

/-- The bits a mask of 0xF000 keeps are the group. -/
theorem and_F000 (w : Word) : w &&& 0xF000#16 = groupOf w ++ 0#12 := by
  unfold groupOf
  apply BitVec.eq_of_getLsbD_eq
  intro k hk
  interval_cases k <;> simp only [BitVec.getLsbD_and, BitVec.getLsbD_append, BitVec.getLsbD_extractLsb'] <;> simp

/-- The bits a mask of 0xF00F keeps are the group and the low nibble. -/
theorem and_F00F (w : Word) : w &&& 0xF00F#16 = groupOf w ++ 0#4 ++ 0#4 ++ fieldN w := by
  unfold groupOf fieldN
  apply BitVec.eq_of_getLsbD_eq
  intro k hk
  interval_cases k <;> simp only [BitVec.getLsbD_and, BitVec.getLsbD_append, BitVec.getLsbD_extractLsb'] <;> simp

/-- The bits a mask of 0xF0FF keeps are the group and the low byte. -/
theorem and_F0FF (w : Word) : w &&& 0xF0FF#16 = groupOf w ++ 0#4 ++ fieldKk w := by
  unfold groupOf fieldKk
  apply BitVec.eq_of_getLsbD_eq
  intro k hk
  interval_cases k <;> simp only [BitVec.getLsbD_and, BitVec.getLsbD_append, BitVec.getLsbD_extractLsb'] <;> simp

namespace Laws.EncodeMatchesRow

/-- The instruction's row of the opcode table takes the instruction's word. -/
def Statement (i : Instr) : Prop := ∃ r, opcodeTable[i.rowIndex]? = some r ∧ r.takes (encode i) = true

theorem cls : Statement .cls :=
  ⟨_, rfl, by decide⟩

theorem ret : Statement .ret :=
  ⟨_, rfl, by decide⟩

theorem sys (nnn : Addr12) : Statement (.sys nnn) :=
  ⟨_, rfl, by simp [OpcodeRow.takes, encode, and_F000]⟩

theorem jp (nnn : Addr12) : Statement (.jp nnn) :=
  ⟨_, rfl, by simp [OpcodeRow.takes, encode, and_F000]⟩

theorem call (nnn : Addr12) : Statement (.call nnn) :=
  ⟨_, rfl, by simp [OpcodeRow.takes, encode, and_F000]⟩

theorem seVxKk (x : Reg) (kk : Byte) : Statement (.seVxKk x kk) :=
  ⟨_, rfl, by simp [OpcodeRow.takes, encode, and_F000]⟩

theorem sneVxKk (x : Reg) (kk : Byte) : Statement (.sneVxKk x kk) :=
  ⟨_, rfl, by simp [OpcodeRow.takes, encode, and_F000]⟩

theorem seVxVy (x : Reg) (y : Reg) (n : Nibble) : Statement (.seVxVy x y n) :=
  ⟨_, rfl, by simp [OpcodeRow.takes, encode, and_F000]⟩

theorem ldVxKk (x : Reg) (kk : Byte) : Statement (.ldVxKk x kk) :=
  ⟨_, rfl, by simp [OpcodeRow.takes, encode, and_F000]⟩

theorem addVxKk (x : Reg) (kk : Byte) : Statement (.addVxKk x kk) :=
  ⟨_, rfl, by simp [OpcodeRow.takes, encode, and_F000]⟩

theorem ldVxVy (x : Reg) (y : Reg) : Statement (.ldVxVy x y) :=
  ⟨_, rfl, by simp [OpcodeRow.takes, encode, and_F00F]⟩

theorem orVxVy (x : Reg) (y : Reg) : Statement (.orVxVy x y) :=
  ⟨_, rfl, by simp [OpcodeRow.takes, encode, and_F00F]⟩

theorem andVxVy (x : Reg) (y : Reg) : Statement (.andVxVy x y) :=
  ⟨_, rfl, by simp [OpcodeRow.takes, encode, and_F00F]⟩

theorem xorVxVy (x : Reg) (y : Reg) : Statement (.xorVxVy x y) :=
  ⟨_, rfl, by simp [OpcodeRow.takes, encode, and_F00F]⟩

theorem addVxVy (x : Reg) (y : Reg) : Statement (.addVxVy x y) :=
  ⟨_, rfl, by simp [OpcodeRow.takes, encode, and_F00F]⟩

theorem subVxVy (x : Reg) (y : Reg) : Statement (.subVxVy x y) :=
  ⟨_, rfl, by simp [OpcodeRow.takes, encode, and_F00F]⟩

theorem shrVx (x : Reg) (y : Reg) : Statement (.shrVx x y) :=
  ⟨_, rfl, by simp [OpcodeRow.takes, encode, and_F00F]⟩

theorem subnVxVy (x : Reg) (y : Reg) : Statement (.subnVxVy x y) :=
  ⟨_, rfl, by simp [OpcodeRow.takes, encode, and_F00F]⟩

theorem shlVx (x : Reg) (y : Reg) : Statement (.shlVx x y) :=
  ⟨_, rfl, by simp [OpcodeRow.takes, encode, and_F00F]⟩

theorem sneVxVy (x : Reg) (y : Reg) (n : Nibble) : Statement (.sneVxVy x y n) :=
  ⟨_, rfl, by simp [OpcodeRow.takes, encode, and_F000]⟩

theorem ldI (nnn : Addr12) : Statement (.ldI nnn) :=
  ⟨_, rfl, by simp [OpcodeRow.takes, encode, and_F000]⟩

theorem jpV0 (nnn : Addr12) : Statement (.jpV0 nnn) :=
  ⟨_, rfl, by simp [OpcodeRow.takes, encode, and_F000]⟩

theorem rnd (x : Reg) (kk : Byte) : Statement (.rnd x kk) :=
  ⟨_, rfl, by simp [OpcodeRow.takes, encode, and_F000]⟩

theorem drw (x : Reg) (y : Reg) (n : Nibble) : Statement (.drw x y n) :=
  ⟨_, rfl, by simp [OpcodeRow.takes, encode, and_F000]⟩

theorem skp (x : Reg) : Statement (.skp x) :=
  ⟨_, rfl, by simp [OpcodeRow.takes, encode, and_F0FF]⟩

theorem sknp (x : Reg) : Statement (.sknp x) :=
  ⟨_, rfl, by simp [OpcodeRow.takes, encode, and_F0FF]⟩

theorem ldVxDt (x : Reg) : Statement (.ldVxDt x) :=
  ⟨_, rfl, by simp [OpcodeRow.takes, encode, and_F0FF]⟩

theorem ldVxK (x : Reg) : Statement (.ldVxK x) :=
  ⟨_, rfl, by simp [OpcodeRow.takes, encode, and_F0FF]⟩

theorem ldDtVx (x : Reg) : Statement (.ldDtVx x) :=
  ⟨_, rfl, by simp [OpcodeRow.takes, encode, and_F0FF]⟩

theorem ldStVx (x : Reg) : Statement (.ldStVx x) :=
  ⟨_, rfl, by simp [OpcodeRow.takes, encode, and_F0FF]⟩

theorem addIVx (x : Reg) : Statement (.addIVx x) :=
  ⟨_, rfl, by simp [OpcodeRow.takes, encode, and_F0FF]⟩

theorem ldFVx (x : Reg) : Statement (.ldFVx x) :=
  ⟨_, rfl, by simp [OpcodeRow.takes, encode, and_F0FF]⟩

theorem ldBVx (x : Reg) : Statement (.ldBVx x) :=
  ⟨_, rfl, by simp [OpcodeRow.takes, encode, and_F0FF]⟩

theorem ldMemVx (x : Reg) : Statement (.ldMemVx x) :=
  ⟨_, rfl, by simp [OpcodeRow.takes, encode, and_F0FF]⟩

theorem ldVxMem (x : Reg) : Statement (.ldVxMem x) :=
  ⟨_, rfl, by simp [OpcodeRow.takes, encode, and_F0FF]⟩

theorem nop8 (x : Reg) (y : Reg) (n : Nibble) : Statement (.nop8 x y n) :=
  ⟨_, rfl, by simp [OpcodeRow.takes, encode, and_F000]⟩

theorem nopE (x : Reg) (kk : Byte) : Statement (.nopE x kk) :=
  ⟨_, rfl, by simp [OpcodeRow.takes, encode, and_F000]⟩

theorem nopF (x : Reg) (kk : Byte) : Statement (.nopF x kk) :=
  ⟨_, rfl, by simp [OpcodeRow.takes, encode, and_F000]⟩

end Laws.EncodeMatchesRow

end Sys2Proof
end

