-- ==== Sys2Proof/Laws/Reset.lean ====
section
/-! SUPPORT. What the reset state of a machine with any font holds. -/

namespace Sys2Proof.Machine

/-- A font changes the memory after reset and nothing else. -/
theorem State.resetWith_eq (font : Vector Byte 80) :
    State.resetWith font = { State.reset with mem := (State.resetWith font).mem } := rfl

theorem State.wf_mem_resetWith (font : Vector Byte 80) : (State.resetWith font).mem.wf = true :=
  Memory.writeList_wf rfl (.inr (by simp [fontBase]))

/-- The font stands at addresses 0 to 79. -/
theorem State.read_resetWith_font (font : Vector Byte 80) {a : Nat} (h : a < 80) :
    (State.resetWith font).mem.read a = font[a] := by
  have := Memory.read_writeList_inside (m := State.reset.mem) (base := fontBase) (bytes := font.toList) (k := a) rfl
    (by simp [fontBase]) (by simpa using h)
  simpa [State.resetWith, fontBase] using this

/-- Every other address is zero. -/
theorem State.read_resetWith_above (font : Vector Byte 80) {a : Nat} (h : 80 ≤ a) :
    (State.resetWith font).mem.read a = 0#8 := by
  simp only [State.resetWith, State.setMem_mem]
  rw [Memory.read_writeList_outside (.inr (by simpa [fontBase] using h))]
  have len : fontData.length = 80 := by decide
  simp [State.reset, Memory.read, unlisted, fontBase, len, h]

end Sys2Proof.Machine
end

