-- ==== Sys2Proof/Tests/Slice0.lean ====
section
/-! SUPPORT. The model's own tests. Expected results come from the spec: the encodings of 30_encoding.md R63 to R72 for the
decode tests, and the vectors of 95_test_vectors.md, named in each docstring, for the steps. -/

namespace Sys2Proof.Tests

open Sys2Proof.Machine

/-! ## Well-formedness: one ill-formed term for each check -/

/-- The words 00E0 and 00EE are not `SYS nnn` (30_encoding.md R67). -/
theorem test_wf_refuses_sys : (Instr.sys 0x0E0).wf = false ∧ (Instr.sys 0x0EE).wf = false ∧ (Instr.sys 0x1EE).wf = true := by
  decide

/-- A recognised low nibble is not `NOP8` (R69). -/
theorem test_wf_refuses_nop8 : (Instr.nop8 1 2 0xE).wf = false ∧ (Instr.nop8 1 2 0x8).wf = true := by decide

/-- A recognised low byte is not `NOPE` (R70). -/
theorem test_wf_refuses_nopE : (Instr.nopE 3 0x9E).wf = false ∧ (Instr.nopE 3 0x9F).wf = true := by decide

/-- A recognised low byte is not `NOPF` (R71). -/
theorem test_wf_refuses_nopF : (Instr.nopF 3 0x65).wf = false ∧ (Instr.nopF 3 0x75).wf = true := by decide

/-! ## Decoding: a word of every row, written out from the encoding tables (30_encoding.md R63, R64, R66) -/

theorem test_decode_group0 :
    decodeWord 0b0000_0000_1110_0000 = .cls ∧ decodeWord 0b0000_0000_1110_1110 = .ret ∧
    decodeWord 0b0000_0001_1110_1110 = .sys 0b0001_1110_1110 := by decide

theorem test_decode_addresses :
    decodeWord 0b0001_1010_1011_1100 = .jp 0xABC ∧ decodeWord 0b0010_0010_0000_0100 = .call 0x204 ∧
    decodeWord 0b1010_0010_1111_0000 = .ldI 0x2F0 ∧ decodeWord 0b1011_0011_0000_0001 = .jpV0 0x301 := by decide

theorem test_decode_literals :
    decodeWord 0b0011_0001_0010_0011 = .seVxKk 1 0x23 ∧ decodeWord 0b0100_1010_0100_0011 = .sneVxKk 0xA 0x43 ∧
    decodeWord 0b0110_1010_0011_1100 = .ldVxKk 0xA 0x3C ∧ decodeWord 0b0111_0001_1111_1110 = .addVxKk 1 0xFE ∧
    decodeWord 0b1100_0001_0000_1111 = .rnd 1 0x0F := by decide

theorem test_decode_register_skips :
    decodeWord 0b0101_0001_0010_0000 = .seVxVy 1 2 0 ∧ decodeWord 0b0101_0001_0010_1111 = .seVxVy 1 2 0xF ∧
    decodeWord 0b1001_0001_0010_0111 = .sneVxVy 1 2 7 := by decide

theorem test_decode_group8_low :
    decodeWord 0b1000_0001_0010_0000 = .ldVxVy 1 2 ∧ decodeWord 0b1000_0001_0010_0001 = .orVxVy 1 2 ∧
    decodeWord 0b1000_0001_0010_0010 = .andVxVy 1 2 ∧ decodeWord 0b1000_0001_0010_0011 = .xorVxVy 1 2 ∧
    decodeWord 0b1000_0001_0010_0100 = .addVxVy 1 2 := by decide

theorem test_decode_group8_high :
    decodeWord 0b1000_0001_0010_0101 = .subVxVy 1 2 ∧ decodeWord 0b1000_0001_0010_0110 = .shrVx 1 2 ∧
    decodeWord 0b1000_0001_0010_0111 = .subnVxVy 1 2 ∧ decodeWord 0b1000_0001_0010_1110 = .shlVx 1 2 ∧
    decodeWord 0b1000_0001_0010_1101 = .nop8 1 2 0xD := by decide

theorem test_decode_draw_and_keys :
    decodeWord 0b1101_0001_0010_0011 = .drw 1 2 3 ∧ decodeWord 0b1110_0011_1001_1110 = .skp 3 ∧
    decodeWord 0b1110_0011_1010_0001 = .sknp 3 ∧ decodeWord 0b1110_0011_1010_0000 = .nopE 3 0xA0 := by decide

theorem test_decode_groupF_timers :
    decodeWord 0b1111_0001_0000_0111 = .ldVxDt 1 ∧ decodeWord 0b1111_0101_0000_1010 = .ldVxK 5 ∧
    decodeWord 0b1111_0010_0001_0101 = .ldDtVx 2 ∧ decodeWord 0b1111_0010_0001_1000 = .ldStVx 2 ∧
    decodeWord 0b1111_0001_1000_0101 = .nopF 1 0x85 := by decide

theorem test_decode_groupF_index :
    decodeWord 0b1111_0011_0001_1110 = .addIVx 3 ∧ decodeWord 0b1111_0010_0010_1001 = .ldFVx 2 ∧
    decodeWord 0b1111_0001_0011_0011 = .ldBVx 1 ∧ decodeWord 0b1111_0010_0101_0101 = .ldMemVx 2 ∧
    decodeWord 0b1111_0010_0110_0101 = .ldVxMem 2 := by decide

/-- Bytes are big-endian, one byte is no instruction, and the rest of the bytes is answered (R60, R61). -/
theorem test_decode_bytes :
    decodeBytes [0x2A, 0xBC, 0x11] = .ok (.call 0xABC, [0x11]) ∧ decodeBytes [0x2A] = .error .truncated ∧
    decodeTableWord 16 0x6A3C = some (.ldVxKk 0xA 0x3C) := by decide

/-- Encoding gives the same words back (R64). -/
theorem test_encode :
    encode (.shlVx 1 2) = 0x812E ∧ encode (.ldMemVx 0xF) = 0xFF55 ∧ encode (.drw 1 2 3) = 0xD123 ∧ encode .cls = 0x00E0 ∧
    encodeBytes (.call 0x204) = [0x22, 0x04] := by decide

/-! ## Steps: vectors of 95_test_vectors.md -/

/-- The reset state changed by `f`, with the word `w` stored at its `pc`. -/
def before (w : Nat) (f : State → State) : State := (f State.reset).withFetchWord 16 w

/-- What `view` shows of the state after one step. -/
def seen {α : Type} (view : State → α) (s : State) : Option α :=
  match step s with
  | .next t => some (view t)
  | _ => none

/-- What register `r` holds in the state an instruction answers. -/
def seenReg (r : Reg) : Host.Outcome State Fault Refusal → Option Byte
  | .next t => some (t.reg r)
  | _ => none

/-- FL1: `CLS` darkens the display and leaves `VF`. -/
theorem test_cls : seen (fun t => (t.disp.pixel 0, t.disp.pixel 2047, t.reg VF, t.pc))
    (before 0x00E0 fun s => (s.setDisp ((s.disp.toggle 0).toggle 2047)).setReg VF 1) = some (false, false, 1, 0x202) := by
  decide

/-- FL2: `RET` pops the last live entry. -/
theorem test_ret : seen (fun t => (t.pc, t.sp, t.fault))
    (before 0x00EE fun s => { s with pc := 0x300, sp := 2, stack := (s.stack.set 0 0x202).set 1 0x20A }) =
    some (0x20A, 1, .noFault) := by decide

/-- FL3 and CY10: `RET` with no live entry faults, keeps `pc`, and has no tail. -/
theorem test_ret_underflow : seen (fun t => (t.pc, t.sp, t.fault, t.dt, t.faultInfo))
    (before 0x00EE fun s => { s with pc := 0x300, dt := 5 }) = some (0x300, 0, .stackUnderflow, 5, none) := by decide

/-- FL6: `01EE` is not a return. -/
theorem test_sys : seen (fun t => (t.pc, t.sp)) (before 0x01EE fun s => { s with sp := 1, stack := s.stack.set 0 0x400 }) =
    some (0x202, 1) := by decide

/-- FL7 and FL9: `JP`; a target above 4094 is no fault yet. -/
theorem test_jp : seen (fun t => t.pc) (before 0x1ABC id) = some 0xABC ∧
    seen (fun t => (t.pc, t.fault, t.nextWordNonZero)) (before 0x1FFF id) = some (0xFFF, .noFault, false) := by decide

/-- FL9, second half: the fetch at 0xFFF faults, with information 0xFFF. -/
theorem test_fetch_range : seen (fun t => (t.pc, t.fault, t.faultInfo)) { State.reset with pc := 0xFFF } =
    some (0xFFF, .fetchRange, some 0xFFF) := by decide

/-- FL11: the sixteenth call. -/
theorem test_call : seen (fun t => (t.pc, t.sp, t.stack[15])) (before 0x2300 fun s => { s with pc := 0x2FE, sp := 15 }) =
    some (0x300, 16, 0x300) := by decide

/-- FL12: the seventeenth call faults and keeps `pc`, `SP` and the stack. -/
theorem test_call_overflow : seen (fun t => (t.pc, t.sp, t.fault, t.stack[15]))
    (before 0x2300 fun s => { s with pc := 0x2FE, sp := 16 }) = some (0x2FE, 16, .stackOverflow, 0) := by decide

/-- FL14: the sum of `JP V0, nnn` is not reduced to 12 bits. -/
theorem test_jpV0 : seen (fun t => t.pc) (before 0xBFFF fun s => s.setReg 0 0xFF) = some 0x10FE := by decide

/-- S5: `SE Vx, kk`, taken and not taken. -/
theorem test_seVxKk : seen (fun t => t.pc) (before 0x3000 id) = some 0x204 ∧ seen (fun t => t.pc) (before 0x3001 id) = some 0x202 := by
  decide

/-- SK1 and SK2: `SNE Vx, kk`. -/
theorem test_sneVxKk : seen (fun t => t.pc) (before 0x4A42 fun s => s.setReg 0xA 0x42) = some 0x202 ∧
    seen (fun t => t.pc) (before 0x4A43 fun s => s.setReg 0xA 0x42) = some 0x204 := by decide

/-- SK4 and SK6: `SE Vx, Vy`; the low nibble is ignored. -/
theorem test_seVxVy : seen (fun t => t.pc) (before 0x5120 fun s => (s.setReg 1 7).setReg 2 8) = some 0x202 ∧
    seen (fun t => t.pc) (before 0x512F fun s => (s.setReg 1 7).setReg 2 7) = some 0x204 := by decide

/-- SK8 and SK10: `SNE Vx, Vy`; the low nibble is ignored. -/
theorem test_sneVxVy : seen (fun t => t.pc) (before 0x9120 fun s => (s.setReg 1 7).setReg 2 7) = some 0x202 ∧
    seen (fun t => t.pc) (before 0x9127 fun s => (s.setReg 1 1).setReg 2 2) = some 0x204 := by decide

/-- SK11: a taken skip may leave `pc` above 4094 without a fault. -/
theorem test_skip_at_top : seen (fun t => (t.pc, t.fault, t.nextWordNonZero)) (before 0x3000 fun s => s.setPc 0xFFB) =
    some (0xFFF, .noFault, false) := by decide

/-- AL2: register 15 is an ordinary destination of `LD Vx, kk`. -/
theorem test_ldVxKk : seen (fun t => t.reg VF) (before 0x6F07 id) = some 7 := by decide

/-- AL3: `ADD Vx, kk` wraps and reports no carry. -/
theorem test_addVxKk : seen (fun t => (t.reg 0, t.reg VF)) (before 0x7001 fun s => s.setReg 0 0xFF) = some (0, 0) := by decide

/-- AL7: `LD Vx, Vy`. -/
theorem test_ldVxVy : seen (fun t => (t.reg 1, t.reg VF)) (before 0x8120 fun s => ((s.setReg 1 1).setReg 2 0xAB).setReg VF 1) =
    some (0xAB, 1) := by decide

/-- AL9: `OR` leaves `VF`. -/
theorem test_orVxVy : seen (fun t => (t.reg 1, t.reg VF)) (before 0x8121 fun s => ((s.setReg 1 0xF0).setReg 2 0x0F).setReg VF 1) =
    some (0xFF, 1) := by decide

/-- AL10: `AND` leaves `VF`. -/
theorem test_andVxVy : seen (fun t => (t.reg 1, t.reg VF)) (before 0x8122 fun s => ((s.setReg 1 0xF0).setReg 2 0x3C).setReg VF 1) =
    some (0x30, 1) := by decide

/-- AL11: `XOR` leaves `VF`. -/
theorem test_xorVxVy : seen (fun t => (t.reg 1, t.reg VF)) (before 0x8123 fun s => ((s.setReg 1 0xF0).setReg 2 0x3C).setReg VF 1) =
    some (0xCC, 1) := by decide

/-- AL15: a sum of exactly 255 has no carry, and the flag is cleared. -/
theorem test_addVxVy : seen (fun t => (t.reg 1, t.reg VF)) (before 0x8124 fun s => ((s.setReg 1 0xFE).setReg 2 1).setReg VF 1) =
    some (0xFF, 0) := by decide

/-- AL17: with `x = F` the flag overwrites the result. -/
theorem test_addVxVy_flag : seen (fun t => t.reg VF) (before 0x8F14 fun s => (s.setReg VF 0xC8).setReg 1 0x64) = some 1 := by decide

/-- S2: 5 - 10 borrows. -/
theorem test_subVxVy : seen (fun t => (t.reg 1, t.reg 2, t.reg VF)) (before 0x8125 fun s => (s.setReg 1 5).setReg 2 0x0A) =
    some (0xFB, 0x0A, 1) := by decide

/-- AL27: `VF` as the subtrahend is read before it is written. -/
theorem test_subVxVy_operand : seen (fun t => (t.reg 1, t.reg VF)) (before 0x81F5 fun s => (s.setReg 1 5).setReg VF 0x0A) =
    some (0xFB, 1) := by decide

/-- AL28: `SHR` shifts `Vx`, not `Vy`. -/
theorem test_shrVx : seen (fun t => (t.reg 1, t.reg 2, t.reg VF)) (before 0x8126 fun s => (s.setReg 1 5).setReg 2 0xFF) =
    some (2, 0xFF, 1) := by decide

/-- AL35: `SUBN` computes `Vy - Vx`. -/
theorem test_subnVxVy : seen (fun t => (t.reg 1, t.reg VF)) (before 0x8127 fun s => (s.setReg 1 0x0A).setReg 2 5) =
    some (0xFB, 1) := by decide

/-- AL39: `SHL` shifts `Vx`, not `Vy`. -/
theorem test_shlVx : seen (fun t => (t.reg 1, t.reg 2, t.reg VF)) (before 0x812E fun s => (s.setReg 1 0x81).setReg 2 0xFF) =
    some (2, 0xFF, 1) := by decide

/-- AL45: an unrecognised low nibble of group 8. -/
theorem test_nop8 : seen (fun t => (t.reg 1, t.reg VF, t.pc)) (before 0x812D fun s => (s.setReg 1 0x12).setReg VF 1) =
    some (0x12, 1, 0x202) := by decide

/-- IM1: `LD I, nnn` clears the top four bits of `I`. -/
theorem test_ldI : seen (fun t => t.i) (before 0xA2F0 fun s => s.setI 0xFFFF) = some 0x02F0 := by decide

/-- IM5: `ADD I, Vx` wraps at 16 bits and leaves `VF`. -/
theorem test_addIVx : seen (fun t => (t.i, t.reg VF)) (before 0xF01E fun s => ((s.setI 0xFFFF).setReg 0 2).setReg VF 1) =
    some (1, 1) := by decide

/-- IM8 and IM11: `LD F, Vx` uses the whole byte. -/
theorem test_ldFVx : seen (fun t => t.i) (before 0xF229 fun s => s.setReg 2 0x0F) = some 0x004B ∧
    seen (fun t => t.i) (before 0xF229 fun s => s.setReg 2 0xFF) = some 0x04FB := by decide

/-- IM12: the digits of 254 at I, I+1, I+2. -/
theorem test_ldBVx : seen (fun t => (t.mem.readList 0x300 4, t.i)) (before 0xF033 fun s => (s.setReg 0 0xFE).setI 0x300) =
    some ([2, 5, 4, 0], 0x300) := by decide

/-- IM18: a digit above address 4095 faults and nothing is written. -/
theorem test_ldBVx_range : seen (fun t => (t.pc, t.fault, t.faultInfo, t.mem.read 0xFFE))
    (before 0xF033 fun s => (s.setReg 0 0x7B).setI 0xFFE) = some (0x200, .dataRange, some 0x1000, 0) := by decide

/-- IM21: a block store of three registers; `I` advances by 3 + 1. -/
theorem test_ldMemVx : seen (fun t => (t.mem.readList 0x400 4, t.i))
    (before 0xF255 fun s => ((((s.setReg 0 0x11).setReg 1 0x22).setReg 2 0x33).setReg 3 0x44).setI 0x400) =
    some ([0x11, 0x22, 0x33, 0], 0x404) := by decide

/-- IM28: the range is not wrapped; the information is the lowest address. -/
theorem test_ldMemVx_range : seen (fun t => (t.fault, t.faultInfo, t.i)) (before 0xF155 fun s => s.setI 0xFFFF) =
    some (.dataRange, some 0xFFFF, 0xFFFF) := by decide

/-- IM32: a block load that ends at the last byte of memory. -/
theorem test_ldVxMem : seen (fun t => (t.reg 0, t.reg 1, t.reg 2, t.reg 3, t.i))
    (before 0xF265 fun s => (s.setMem (s.mem.writeList 0xFFD [7, 8, 9])).setI 0xFFD) = some (7, 8, 9, 0, 0x1001) := by decide

/-- IM33: a block load past the last byte changes no register. -/
theorem test_ldVxMem_range : seen (fun t => (t.fault, t.faultInfo, t.reg 0))
    (before 0xF265 fun s => (s.setReg 0 1).setI 0xFFE) = some (.dataRange, some 0x1000, 1) := by decide

/-- RN2: a zero mask gives zero whatever the draw. -/
theorem test_rnd_zero_mask (s : State) : seenReg 3 (execRnd 3 0x00 s) = some 0 := by
  simp [seenReg, execRnd, State.setRegDrawn, State.countDraw, State.setReg, State.reg]

/-- RN5: `RND` advances `pc`; one draw is counted (log entry 3). -/
theorem test_rnd_bits : seen (fun t => (t.pc, t.draws)) (before 0xC10F id) = some (0x202, 1) := by decide

/-- DR1: a sprite that wraps at the right edge. -/
theorem test_drw_wrap : seen (fun t => (t.disp.pixel 2047, t.disp.pixel 1984, t.disp.pixel 2046, t.reg VF))
    (before 0xD011 fun s => (((s.setReg 0 63).setReg 1 31).setI 0x300).setMem (s.mem.write 0x300 0xC0)) =
    some (true, true, false, 0) := by decide

/-- DR5: a collision darkens the pixel and sets `VF`. -/
theorem test_drw_collision : seen (fun t => (t.disp.pixel 6, t.disp.pixel 7, t.reg VF))
    (before 0xD011 fun s => ((s.setI 0x300).setMem (s.mem.write 0x300 0xFF)).setDisp (s.disp.toggle 7)) =
    some (true, false, 1) := by decide

/-- KY4 and KY6: `SKP` tests one bit, and key 0x17 is not reduced to key 7. -/
theorem test_skp :
    seen (fun t => t.pc) (before 0xE39E fun s => { s.setReg 3 0x0F with inputMask := 0x8000 }) = some 0x204 ∧
    seen (fun t => t.pc) (before 0xE39E fun s => { s.setReg 3 0x17 with inputMask := 0xFFFF }) = some 0x202 := by decide

/-- KY8 and KY9: `SKNP`. -/
theorem test_sknp :
    seen (fun t => t.pc) (before 0xE3A1 fun s => { s.setReg 3 7 with inputMask := 0x0080 }) = some 0x202 ∧
    seen (fun t => t.pc) (before 0xE3A1 fun s => { s.setReg 3 0x10 with inputMask := 0xFFFF }) = some 0x204 := by decide

/-- KY10: an unrecognised low byte of group E. -/
theorem test_nopE : seen (fun t => (t.pc, t.reg 3)) (before 0xE39F fun s => s.setReg 3 7) = some (0x202, 7) := by decide

/-- KY12: a release ends the wait. -/
theorem test_ldVxK : seen (fun t => (t.reg 5, t.pc, t.prevMask)) (before 0xF50A fun s => { s with prevMask := 0x0010 }) =
    some (4, 0x202, 0) := by decide

/-- KY18: while waiting `pc` stays and the timers run. -/
theorem test_ldVxK_waits : seen (fun t => (t.pc, t.dt, t.st)) (before 0xF50A fun s => { s with dt := 5, st := 1 }) =
    some (0x200, 4, 0) := by decide

/-- KY17: one press and one release at once end the wait; the value is free. -/
theorem test_ldVxK_several : seen (fun t => (t.pc, t.prevMask, t.draws))
    (before 0xF50A fun s => { s with inputMask := 1, prevMask := 2 }) = some (0x202, 1, 1) := by decide

/-- TM1: `LD Vx, DT` reads before the decrement. -/
theorem test_ldVxDt : seen (fun t => (t.reg 1, t.dt)) (before 0xF107 fun s => { s with dt := 2 }) = some (2, 1) := by decide

/-- TM4 and TM5: `LD DT, Vx` is decremented in its own cycle, and 0 stays 0. -/
theorem test_ldDtVx : seen (fun t => t.dt) (before 0xF015 fun s => s.setReg 0 3) = some 2 ∧
    seen (fun t => t.dt) (before 0xF015 fun s => { s with dt := 9 }) = some 0 := by decide

/-- TM9: `LD ST, Vx`. -/
theorem test_ldStVx : seen (fun t => (t.st, t.dt)) (before 0xF018 fun s => { s.setReg 0 0x10 with dt := 5 }) =
    some (0x0F, 4) := by decide

/-- NP1: an unrecognised low byte of group F. -/
theorem test_nopF : seen (fun t => (t.pc, t.i, t.dt)) (before 0xF085 fun s => { s.setI 0x123 with dt := 2 }) =
    some (0x202, 0x123, 1) := by decide

/-- CY9: a halted machine does nothing. -/
theorem test_halted : seen (fun t => (t.dt, t.prevMask, t.pc)) (before 0x6001 fun s => { s with fault := .dataRange, dt := 5, inputMask := 1 }) =
    some (5, 0, 0x200) := by decide

/-! ## The host's transactions -/

/-- CY1: the result of a step is false when the next word is zero. -/
theorem test_step_result : (match hostStep (before 0x6001 id) with | .next (_, r) => some r | _ => none) =
    some (.ran false none) := by decide

/-- CY5: a frame whose first step faults answers false with the report, and stays at the faulting instruction. -/
theorem test_frame_fault :
    (match hostFrame 9 (before 0x00EE id) with | .next (t, r) => some (t.pc, r) | _ => none) =
    some (0x200, .ran false (some { cause := .stackUnderflow, info := none })) := by decide

/-- CY3: five additions and four jumps in one frame. -/
theorem test_frame :
    (match hostFrame 9 (hostLoadProgram [0x70, 0x01, 0x12, 0x00] State.reset).1 with
      | .next (t, r) => some (t.reg 0, t.pc, r) | _ => none) = some (5, 0x202, .ran true none) := by decide

/-- HO5, HO6 and HO8: setting and clearing a key; an index above 15 is refused. -/
theorem test_setKey :
    (hostSetKey 7 true { State.reset with inputMask := 1 }).1.inputMask = 0x0081 ∧
    (hostSetKey 0 false { State.reset with inputMask := 0x81 }).1.inputMask = 0x0080 ∧
    (hostSetKey 16 true State.reset).2 = .keyRefused := by decide

/-- HO4: loading changes the image's bytes only. -/
theorem test_loadProgram :
    let t := (hostLoadProgram [0x12, 0x00] (State.reset.setPc 0x300)).1
    t.mem.readList 0x1FF 4 = [0, 0x12, 0, 0] ∧ t.pc = 0x300 := by decide

/-- HO9: the reset state, with the default font. -/
theorem test_reset : State.reset.mem.readList 0 6 = [0xF0, 0x90, 0x90, 0x90, 0xF0, 0x20] ∧ State.reset.mem.read 80 = 0 ∧
    State.reset.mem.read 0x4F = 0x80 ∧ State.reset.pc = 0x200 := by decide

/-- HO9 with another font: the bytes of the parameter are the reset contents of 0 to 79, and nothing else changes. -/
theorem test_reset_other_font :
    let s := hostReset (Vector.replicate 80 0x81) { State.reset with pc := 0x300, mem := [(0x50, 1), (0x200, 2)], fault := .dataRange }
    s.mem.readList 0x4E 3 = [0x81, 0x81, 0] ∧ s.mem.read 0x200 = 0 ∧ s.pc = 0x200 ∧ s.fault = .noFault := by decide

/-- HO10: the four bytes of a lit pixel, and a dark one. -/
theorem test_framebuffer :
    let s := State.reset.setDisp (State.reset.disp.toggle 2047)
    framebufferByte s 8188 = 0xFF ∧ framebufferByte s 8191 = 0xFF ∧ framebufferByte s 8187 = 0 := by decide

/-! ## Witnesses: states and operands that meet the hypotheses of each statement

`cycle s w p` says at once that `s` runs, fetches `w`, and steps to a state of which `p` holds. -/

/-- A cycle of `s` fetches `w` and ends in a state of which `p` holds. -/
def cycle (s : State) (w : Word) (p : State → Bool) : Bool :=
  s.fault == .noFault && s.fetchWord == some w && match step s with | .next t => p t | _ => false

/-- What `cycle` says, as the hypotheses of the statements about a cycle. -/
theorem cycle_spec {s : State} {w : Word} {p : State → Bool} (h : cycle s w p = true) :
    s.fault = .noFault ∧ s.fetchWord = some w ∧ ∃ t, step s = .next t ∧ p t = true := by
  unfold cycle at h
  simp only [Bool.and_eq_true, beq_iff_eq] at h
  refine ⟨h.1.1, h.1.2, ?_⟩
  cases hs : step s with
  | next t => exact ⟨t, rfl, by simpa [hs] using h.2⟩
  | fault r => simp [hs] at h
  | refused r => simp [hs] at h

/-- A state faults without a fetch, with a cause. -/
def stepFaults (s : State) (c : FaultCode) : Bool :=
  s.fault == .noFault && match step s with | .next t => t.fault == c | _ => false

theorem stepFaults_spec {s : State} {c : FaultCode} (h : stepFaults s c = true) :
    s.fault = .noFault ∧ ∃ t, step s = .next t ∧ t.fault = c := by
  unfold stepFaults at h
  simp only [Bool.and_eq_true, beq_iff_eq] at h
  refine ⟨h.1, ?_⟩
  cases hs : step s with
  | next t => exact ⟨t, rfl, by simpa [hs] using h.2⟩
  | fault r => simp [hs] at h
  | refused r => simp [hs] at h

theorem witness_DecodeOfEncodeIsIdentity :
    (Instr.drw 1 2 3).wf = true ∧ (Instr.sys 0x1EE).wf = true ∧ (Instr.nop8 1 2 0xF).wf = true ∧
    (Instr.nopE 3 0x9F).wf = true ∧ (Instr.nopF 3 0xFF).wf = true := by decide

theorem witness_NoOpWordsAndTheirNumber :
    (0x0, 4094) ∈ [(0x0, 4094), (0x8, 1792), (0xE, 4064), (0xF, 3952)] ∧
    (0xF, 3952) ∈ [(0x0, 4094), (0x8, 1792), (0xE, 4064), (0xF, 3952)] := by decide

theorem witness_StepRunsTheDecodedInstruction :
    let s := before 0x6A3C fun s => s.setPc 0xFFE
    s.fault = .noFault ∧ s.pc.toNat ≤ 4094 ∧
    decodeBytes [s.mem.read s.pc.toNat, s.mem.read (s.pc.toNat + 1)] = .ok (.ldVxKk 0xA 0x3C, []) := by decide

theorem witness_HaltedStepChangesNothing : (State.reset.enterFault .dataRange).fault ≠ .noFault := by decide

/-- One cycle for each clause: one that faults, a timer not written, `DT` written, `ST` written. -/
theorem witness_CycleTailRunsInEveryCycle :
    stepFaults (before 0x00EE id) .stackUnderflow = true ∧
    cycle (before 0x6001 fun s => s.setDt 1) 0x6001 (·.fault == .noFault) = true ∧
    (∀ x, decodeWord 0x6001 ≠ .ldDtVx x) ∧ (∀ x, decodeWord 0x6001 ≠ .ldStVx x) ∧
    cycle (before 0xF015 id) 0xF015 (·.fault == .noFault) = true ∧ decodeWord 0xF015 = .ldDtVx 0 ∧
    cycle (before 0xF018 id) 0xF018 (·.fault == .noFault) = true ∧ decodeWord 0xF018 = .ldStVx 0 := by decide

/-- Three no-op cycles from reset with `DT = 2`: the last finds the timer at 0. -/
theorem witness_DelayTimerCountsCycles :
    ∃ trace : Nat → State, (trace 0).dt.toNat = 2 ∧
      ∀ k, k < 3 → (trace k).fault = .noFault ∧ step (trace k) = .next (trace (k + 1)) ∧ (trace (k + 1)).fault = .noFault ∧
        ∀ w, (trace k).fetchWord = some w → ∀ x, decodeWord w ≠ .ldDtVx x := by
  refine ⟨fun k => { State.reset with pc := 0x200 + 2 * BitVec.ofNat 16 k, dt := BitVec.ofNat 8 (2 - k) }, rfl, ?_⟩
  intro k hk
  have fetched : ∀ s : State, s.fetchWord = some 0x0000 → ∀ w, s.fetchWord = some w → ∀ x, decodeWord w ≠ .ldDtVx x := by
    intro s h w hw x
    cases h.symm.trans hw
    revert x
    decide
  have next : ∀ s t : State, cycle s 0x0000 (· == t) = true → step s = .next t := by
    intro s t h
    obtain ⟨-, -, u, hu, he⟩ := cycle_spec h
    rw [hu, eq_of_beq he]
  interval_cases k <;> exact ⟨by decide, next _ _ (by decide), by decide, fetched _ (by decide)⟩

/-- A fetch fault, a stack fault and a data fault. -/
theorem witness_FaultEntryChangesOnlyTheLatch :
    stepFaults (State.reset.setPc 0xFFF) .fetchRange = true ∧ stepFaults (before 0x00EE id) .stackUnderflow = true ∧
    stepFaults (before 0xF033 fun s => s.setI 0xFFE) .dataRange = true := by decide

/-- Each clause at the edge of its range, and one cycle that does not fault. -/
theorem witness_FaultCausesAreExactlyTheFour :
    stepFaults (State.reset.setPc 0xFFF) .fetchRange = true ∧ stepFaults (before 0x1FFF fun s => s.setPc 0xFFE) .noFault = true ∧
    stepFaults (before 0x2300 fun s => { s with sp := 16 }) .stackOverflow = true ∧
    stepFaults (before 0x2300 fun s => { s with sp := 15 }) .noFault = true ∧
    stepFaults (before 0x00EE id) .stackUnderflow = true ∧ stepFaults (before 0x00EE fun s => { s with sp := 1 }) .noFault = true ∧
    stepFaults (before 0xF033 fun s => s.setI 0xFFE) .dataRange = true ∧
    stepFaults (before 0xF033 fun s => s.setI 0xFFD) .noFault = true := by decide

/-- The lowest address is 4096 for `I = 4094`, and `I` itself for `I = 65535`. -/
theorem witness_DataAboveTheLastByteFaults :
    cycle (before 0xF033 fun s => s.setI 0xFFE) 0xF033 (fun _ => true) = true ∧ dataBytes (decodeWord 0xF033) = 3 ∧
    cycle (before 0xD011 fun s => s.setI 0xFFFF) 0xD011 (fun _ => true) = true ∧ dataBytes (decodeWord 0xD011) = 1 ∧
    4096 < (before 0xF033 fun s => s.setI 0xFFE).i.toNat + 3 ∧ 4096 < (before 0xD011 fun s => s.setI 0xFFFF).i.toNat + 1 := by
  decide

theorem witness_FetchAndStackFaultsSetTheLatch :
    (State.reset.setPc 0xFFF).fault = .noFault ∧ 4094 < (State.reset.setPc 0xFFF).pc.toNat ∧
    cycle (before 0x2300 fun s => { s with sp := 16 }) 0x2300 (fun _ => true) = true ∧ decodeWord 0x2300 = .call 0x300 ∧
    cycle (before 0x00EE id) 0x00EE (fun _ => true) = true ∧ decodeWord 0x00EE = .ret ∧ (before 0x00EE id).sp.val = 0 := by
  decide

/-- The last index or address of each clause, and the first of the next. -/
theorem witness_ResetValues :
    ∃ s, s = State.resetWith (Vector.replicate 80 0xFF) ∧ s ≠ State.reset ∧ 15 < 16 ∧ 79 < 80 ∧ 80 ≤ 80 :=
  ⟨_, rfl, by decide⟩

theorem reset_inv : State.reset.Inv :=
  ⟨by decide, by decide, fun k h => by simp [State.reset]⟩

theorem witness_StepKeepsTheInvariant : State.reset.Inv ∧ ∃ t, step State.reset = .next t :=
  ⟨reset_inv, (cycle_spec (s := State.reset) (w := 0x0000) (p := fun _ => true) (by decide)).2.2.imp fun _ h => h.1⟩

theorem witness_SessionKeepsTheInvariant :
    State.reset.Inv ∧ ∃ t replies, session defaultParams [.loadProgram [0x60, 0x01], .setKey 15 true, .framebuffer] State.reset =
      .next (t, replies) := ⟨reset_inv, _, _, rfl⟩

/-- The last address, for the byte it holds already and for another. -/
theorem witness_MemoryReadsTheLastByteWritten :
    Memory.wf [(0x300, 0x11)] = true ∧ 4095 ≤ 4095 ∧ (0 : Nat) ≤ 4095 ∧ 4094 ≠ 4095 := by decide

/-- The same two bytes written in either order. -/
theorem witness_EqualReadingMemoriesAreEqual :
    let m := Memory.write (Memory.write [] 0x300 1) 0x200 2
    let m' := Memory.write (Memory.write [] 0x200 2) 0x300 1
    m.wf = true ∧ m'.wf = true ∧ ∀ a, a ≤ 4095 → m.read a = m'.read a := by
  refine ⟨by decide, by decide, fun a _ => ?_⟩
  have h : Memory.write (Memory.write [] 0x300 1) 0x200 2 = Memory.write (Memory.write [] 0x200 2) 0x300 1 := by decide
  rw [h]

theorem witness_ClearScreenDarkensEveryPixel : 8191 < 8192 := by decide

/-- The last free entry, and no free entry. -/
theorem witness_CallSavesTheReturnAddress :
    ({ State.reset with sp := 15 } : State).sp.val < 16 ∧ ({ State.reset with sp := 16 } : State).sp.val = 16 ∧ 14 ≠ 15 := by
  decide

/-- One live entry, all sixteen live, and none. -/
theorem witness_ReturnPopsTheLastEntry :
    0 < ({ State.reset with sp := 1 } : State).sp.val ∧ 0 < ({ State.reset with sp := 16 } : State).sp.val ∧
    State.reset.sp.val = 0 := by decide

/-- After the call, `pc` moves on to a return further down. -/
theorem witness_CallThenReturnRestores :
    let s : State := { State.reset with sp := 15 }
    s.sp.val < 16 ∧ ∃ t, exec (.call 0x300) s = .next t ∧ (t.setPc 0x310).stack = t.stack ∧ (t.setPc 0x310).sp = t.sp :=
  ⟨by decide, _, rfl, rfl, rfl⟩

/-- A no-op word of each of the four rows, the zero word among them. -/
theorem witness_NoOpsChangeNothing :
    (0x1EE : Addr12) ≠ 0x0E0#12 ∧ (0x1EE : Addr12) ≠ 0x0EE#12 ∧
    cycle State.reset 0x0000 (fun _ => true) = true ∧ (decodeWord 0x0000).isNoOp = true ∧
    cycle (before 0x812D id) 0x812D (fun _ => true) = true ∧ (decodeWord 0x812D).isNoOp = true ∧
    cycle (before 0xE39F id) 0xE39F (fun _ => true) = true ∧ (decodeWord 0xE39F).isNoOp = true ∧
    cycle (before 0xF085 id) 0xF085 (fun _ => true) = true ∧ (decodeWord 0xF085).isNoOp = true := by decide

theorem witness_LiteralSkips : State.reset.reg 0 = 0x00 ∧ State.reset.reg 0 ≠ 0x01 := by decide

theorem witness_RegisterSkips :
    State.reset.reg 1 = State.reset.reg 2 ∧ (State.reset.setReg 1 7).reg 1 ≠ (State.reset.setReg 1 7).reg 2 := by decide

/-- Key 15 held, key 15 not held, and the first number that is no key. -/
theorem witness_KeySkips :
    let s := State.reset.setReg 3 15
    let held : State := { s with inputMask := 0x8000 }
    (s.reg 3).toNat ≤ 15 ∧ s.inputMask.getLsbD (s.reg 3).toNat = false ∧ held.inputMask.getLsbD (held.reg 3).toNat = true ∧
    15 < ((State.reset.setReg 3 16).reg 3).toNat := by decide

/-- A taken skip fetched at the last address, one not taken, and a key skip for a number that is no key. -/
theorem witness_SkipAdvancesByFourOrTwo :
    (cycle (before 0x3000 fun s => s.setPc 0xFFE) 0x3000 (fun t => decide (4094 < t.pc.toNat)) = true ∧
      ∃ x kk, decodeWord 0x3000 = .seVxKk x kk ∧ (True ↔ (before 0x3000 fun s => s.setPc 0xFFE).reg x = kk)) ∧
    (cycle (before 0x4000 id) 0x4000 (fun _ => true) = true ∧
      ∃ x kk, decodeWord 0x4000 = .sneVxKk x kk ∧ (False ↔ (before 0x4000 id).reg x ≠ kk)) ∧
    (cycle (before 0xE3A1 fun s => s.setReg 3 16) 0xE3A1 (fun _ => true) = true ∧
      ∃ x, decodeWord 0xE3A1 = .sknp x ∧
        (True ↔ ¬(((before 0xE3A1 fun s => s.setReg 3 16).reg x).toNat ≤ 15 ∧
          (before 0xE3A1 fun s => s.setReg 3 16).inputMask.getLsbD ((before 0xE3A1 fun s => s.setReg 3 16).reg x).toNat = true))) := by
  refine ⟨⟨by decide, 0, 0x00, by decide⟩, ⟨by decide, 0, 0x00, by decide⟩, ⟨by decide, 3, by decide⟩⟩

/-- A destination that is not `VF`; a smaller, an equal and a greater minuend. -/
theorem witness_group8_flags :
    (0x1 : Reg) ≠ VF ∧
    ((State.reset.setReg 2 1).reg 1).toNat < ((State.reset.setReg 2 1).reg 2).toNat ∧
    (State.reset.reg 2).toNat ≤ (State.reset.reg 1).toNat := by decide

/-- The highest `I` that stores, and the lowest that faults. -/
theorem witness_DecimalStore :
    State.reset.mem.wf = true ∧ (State.reset.setI 4093).i.toNat + 2 ≤ 4095 ∧ 4095 < (State.reset.setI 4094).i.toNat + 2 := by
  decide

/-- For all sixteen registers and for one: the highest `I` that transfers, and the lowest that faults. -/
theorem witness_block_transfers :
    State.reset.mem.wf = true ∧ (State.reset.setI 4080).i.toNat + (0xF : Reg).toNat ≤ 4095 ∧
    4095 < (State.reset.setI 4081).i.toNat + (0xF : Reg).toNat ∧
    (State.reset.setI 4095).i.toNat + (0x0 : Reg).toNat ≤ 4095 ∧ 4095 < (State.reset.setI 4096).i.toNat + (0x0 : Reg).toNat ∧
    (0xF : Reg).toNat ≤ (0xF : Reg).toNat := by decide

/-- After the store, `I` is set to the start again. -/
theorem witness_BlockTransferRoundTrips :
    let s := State.reset.setI 4080
    s.mem.wf = true ∧ s.i.toNat + (0xF : Reg).toNat ≤ 4095 ∧
    ∃ t, exec (.ldMemVx 0xF) s = .next t ∧ (t.setI s.i).mem = t.mem ∧ (t.setI s.i).i = s.i :=
  ⟨by decide, by decide, _, rfl, rfl, rfl⟩

/-- After the store, `pc` is set to the start of the block. -/
theorem witness_FetchSeesTheStoredWord :
    let s := State.reset.setI 4094
    s.mem.wf = true ∧ 1 ≤ (0x1 : Reg).toNat ∧ s.i.toNat + (0x1 : Reg).toNat ≤ 4095 ∧
    ∃ t, exec (.ldMemVx 0x1) s = .next t ∧ (t.setPc s.i).mem = t.mem ∧ (t.setPc s.i).pc = s.i :=
  ⟨by decide, by decide, by decide, _, rfl, rfl, rfl⟩

/-- No row at all at any `I`, a last row at address 4095, and a row above it. -/
theorem witness_DrawTogglesTheHitPixels_range :
    (0x0 : Nibble).toNat = 0 ∧ (State.reset.setI 4095).i.toNat + (0x1 : Nibble).toNat ≤ 4096 ∧
    (0x2 : Nibble).toNat ≠ 0 ∧ 4096 < (State.reset.setI 4095).i.toNat + (0x2 : Nibble).toNat := by decide

/-- Glyph 0 drawn at column 63, row 31 hits the last pixel and not the one left of it. -/
theorem witness_DrawTogglesTheHitPixels_hits :
    SpriteHits State.reset.mem 0 5 63 31 31 63 ∧ ¬SpriteHits State.reset.mem 0 5 63 31 31 62 := by
  refine ⟨⟨0, 0, by decide⟩, ?_⟩
  rintro ⟨r, b, hr, hb, -, -, h⟩
  omega

/-- A lit pixel under the sprite, and none. -/
theorem witness_DrawTogglesTheHitPixels_collision :
    (∃ row col, row < 32 ∧ col < 64 ∧ (Display.toggle State.reset.disp 2047).pixel (row * 64 + col) = true ∧
      SpriteHits State.reset.mem 0 5 63 31 row col) ∧
    ¬∃ row col, row < 32 ∧ col < 64 ∧ State.reset.disp.pixel (row * 64 + col) = true ∧
      SpriteHits State.reset.mem 0 5 63 31 row col := by
  refine ⟨⟨31, 63, by decide, by decide, by decide, 0, 0, by decide⟩, ?_⟩
  rintro ⟨row, col, -, -, h, -⟩
  have dark : State.reset.disp = Display.dark := rfl
  simp [dark, Display.pixel, Display.dark, Vector.getElem?_replicate] at h
  split at h <;> simp at h

theorem witness_SpriteHitsNoPixelTwice : (List.replicate 15 (0xFF : Byte)).length ≤ 15 := by decide

/-- Between the draws only `VF` is changed, which is no coordinate here. -/
theorem witness_DoubleDrawRestoresTheDisplay :
    let s := State.reset.setI 4081
    s.i.toNat + (0xF : Nibble).toNat ≤ 4096 ∧
    ∃ t, exec (.drw 1 2 0xF) s = .next t ∧ t.mem = s.mem ∧ t.i = s.i ∧ t.reg 1 = s.reg 1 ∧ t.reg 2 = s.reg 2 :=
  ⟨by decide, _, rfl, rfl, rfl, rfl, rfl⟩

/-- No key changed; key 15 alone, released; keys 0 and 15 at once. -/
theorem witness_KeyWaitReportsTheChangedKey :
    State.reset.inputMask = State.reset.prevMask ∧
    (∀ b, b < 16 → ((0x0001 : Word).getLsbD b ≠ (0x8001 : Word).getLsbD b ↔ b = 15)) ∧
    (0x8000 : Word) ≠ 0x0001 ∧
    ¬∃ k, k < 16 ∧ ∀ b, b < 16 → ((0x8000 : Word).getLsbD b ≠ (0x0001 : Word).getLsbD b ↔ b = k) := by
  decide

theorem witness_TimerAccess :
    cycle (before 0xF107 id) 0xF107 (fun _ => true) = true ∧ decodeWord 0xF107 = .ldVxDt 1 ∧
    cycle (before 0xF015 id) 0xF015 (fun _ => true) = true ∧ decodeWord 0xF015 = .ldDtVx 0 ∧
    cycle (before 0xF018 id) 0xF018 (fun _ => true) = true ∧ decodeWord 0xF018 = .ldStVx 0 := by decide

/-- A cycle that stores, one that does not, and one that faults. -/
theorem witness_OnlyTheTwoStoresChangeMemory :
    cycle (before 0xF255 fun s => s.setI 0x400) 0xF255 (·.fault == .noFault) = true ∧ dataBytes (decodeWord 0xF255) = 3 ∧
    cycle (before 0xF265 fun s => s.setI 0x400) 0xF265 (fun _ => true) = true ∧ (∀ x, decodeWord 0xF265 ≠ .ldBVx x) ∧
    (∀ x, decodeWord 0xF265 ≠ .ldMemVx x) ∧
    cycle (before 0xF255 fun s => s.setI 0xFFF) 0xF255 (·.fault != .noFault) = true := by decide

theorem witness_OnlyCallAndReturnChangeTheStack :
    cycle (before 0x1300 fun s => { s with sp := 16 }) 0x1300 (fun _ => true) = true ∧
    (∀ nnn, decodeWord 0x1300 ≠ .call nnn) ∧ decodeWord 0x1300 ≠ .ret ∧
    cycle (before 0x2300 fun s => { s with sp := 15 }) 0x2300 (fun _ => true) = true := by
  refine ⟨by decide, ?_, by decide, by decide⟩
  intro nnn h
  have e : decodeWord 0x1300 = .jp 0x300 := by decide
  rw [e] at h
  cases h

theorem witness_WritersOfDisplayIndexAndInputMask :
    cycle (before 0x6A3C id) 0x6A3C (fun _ => true) = true ∧ decodeWord 0x6A3C = .ldVxKk 0xA 0x3C := by decide

/-- A flag writer whose destination is not `VF`, one that faults, and an instruction without a destination. -/
theorem witness_RegisterWritersAndTheFlag :
    cycle (before 0x8124 id) 0x8124 (·.fault == .noFault) = true ∧ writesFlag (decodeWord 0x8124) = true ∧
    namesDest (decodeWord 0x8124) 2 = false ∧
    cycle (before 0x1300 id) 0x1300 (·.fault == .noFault) = true ∧ namesDest (decodeWord 0x1300) VF = false ∧
    writesFlag (decodeWord 0x1300) = false := by decide

theorem witness_OtherInstructionsFallThrough :
    cycle (before 0x6A3C fun s => s.setPc 0xFFE) 0x6A3C (·.fault == .noFault) = true ∧
    decodeWord 0x6A3C = .ldVxKk 0xA 0x3C := by decide

theorem witness_DrawCountReachesOnlyRandomAndKeyWait :
    (∀ x kk, Instr.cls ≠ .rnd x kk) ∧ ∀ x, Instr.cls ≠ .ldVxK x := ⟨fun _ _ => nofun, fun _ => nofun⟩

/-- The step faults; the next word is not zero; it is zero; and there is none. -/
theorem witness_StepResultPeeksAtTheNextWord :
    stepFaults (before 0x00EE id) .stackUnderflow = true ∧
    cycle (before 0x1200 id) 0x1200 (fun t => t.fault == .noFault && t.nextWordNonZero) = true ∧
    cycle (before 0x6001 id) 0x6001 (fun t => t.fault == .noFault && t.pc == 0x202 && !t.nextWordNonZero) = true ∧
    cycle (before 0x6001 fun s => s.setPc 0xFFE) 0x6001 (fun t => t.fault == .noFault && t.pc == 0x1000) = true := by decide

/-- The longest image, and the first that is too long. -/
theorem witness_LoadProgramCopiesTheImage :
    State.reset.mem.wf = true ∧ (List.replicate 3584 (0x5A : Byte)).length ≤ 3584 ∧
    3584 < (List.replicate 3585 (0x5A : Byte)).length := by
  simp only [List.length_replicate]
  decide

/-- The last key, and the first index that is no key. -/
theorem witness_SetKeyWritesOneBit : 15 ≤ 15 ∧ 15 < 16 ∧ 14 ≠ 15 := by decide

theorem witness_ResetFromAnyState : 79 < 80 ∧ 80 ≤ 80 := by decide

theorem witness_ResetUsesTheDefaultFont :
    State.resetWith defaultParams.font = State.reset ∧ State.reset.mem = [] := by decide

/-- The last byte of the view. -/
theorem witness_FramebufferShowsFourBytesPerPixel : 31 < 32 ∧ 63 < 64 ∧ 3 < 4 := by decide

end Sys2Proof.Tests
end

section
/-! PROOFS. The statements about the state (10_state.md): who writes which piece of it, the values after reset and the
invariant of the machine. -/

namespace Sys2Proof.Machine

variable {i : Instr} {s t : State} {w : Word} {regs : List Reg} {fields : List Field}

/-! ## What a frame says of each piece of state -/

theorem Frame.reg_eq (h : Frame regs fields s t) {r : Reg} (hr : r ∉ regs) : t.reg r = s.reg r := by
  obtain ⟨hreg, -⟩ := h
  exact hreg r hr

theorem Frame.i_eq (h : Frame regs fields s t) (hf : Field.i ∉ fields) : t.i = s.i := by
  obtain ⟨-, hi, -⟩ := h
  exact hi hf

theorem Frame.pc_eq (h : Frame regs fields s t) (hf : Field.pc ∉ fields) : t.pc = s.pc := by
  obtain ⟨-, -, hpc, -⟩ := h
  exact hpc hf

theorem Frame.stack_eq (h : Frame regs fields s t) (hf : Field.stack ∉ fields) : t.stack = s.stack := by
  obtain ⟨-, -, -, hstack, -⟩ := h
  exact hstack hf

theorem Frame.sp_eq (h : Frame regs fields s t) (hf : Field.sp ∉ fields) : t.sp = s.sp := by
  obtain ⟨-, -, -, -, hsp, -⟩ := h
  exact hsp hf

theorem Frame.dt_eq (h : Frame regs fields s t) (hf : Field.dt ∉ fields) : t.dt = s.dt := by
  obtain ⟨-, -, -, -, -, -, hdt, -⟩ := h
  exact hdt hf

theorem Frame.disp_eq (h : Frame regs fields s t) (hf : Field.disp ∉ fields) : t.disp = s.disp := by
  obtain ⟨-, -, -, -, -, -, -, -, hdisp, -⟩ := h
  exact hdisp hf

theorem Frame.inputMask_eq (h : Frame regs fields s t) (hf : Field.inputMask ∉ fields) : t.inputMask = s.inputMask := by
  obtain ⟨-, -, -, -, -, -, -, -, -, hmask, -⟩ := h
  exact hmask hf

theorem Frame.draws_eq (h : Frame regs fields s t) (hf : Field.draws ∉ fields) : t.draws = s.draws := by
  obtain ⟨-, -, -, -, -, -, -, -, -, -, -, -, hdraws⟩ := h
  exact hdraws hf

/-! ## What a handler and a cycle with a fetched word can do -/

/-- `exec_cases` for a handler whose next state is given: it raised, which only takes the advance of `pc` back and sets the
latch, or it wrote within its write set. -/
theorem exec_next_cases (h : exec i s = .next t) :
    (∃ c, Raises i s c ∧ t = (s.setPc (s.pc - 2#16)).enterFault c) ∨
    ((∀ c, ¬Raises i s c) ∧ Frame (regWriteSet i) (writeSet i) s t) := by
  rcases exec_cases i s with ⟨c, hc, hx⟩ | ⟨u, hc, hx, hfr⟩
  · rw [hx] at h
    exact .inl ⟨c, hc, (Host.Outcome.next.inj h).symm⟩
  · rw [hx] at h
    cases Host.Outcome.next.inj h
    exact .inr ⟨hc, hfr⟩

/-- `step_running_cases` for a cycle whose word is given. -/
theorem step_fetched_cases (hs : s.fault = .noFault) (hw : s.fetchWord = some w) (h : step s = .next t) :
    (∃ c, Raises (decodeWord w) s c ∧ t = s.enterFault c) ∨
    (∃ u, exec (decodeWord w) s.advance = .next u ∧
      Frame (regWriteSet (decodeWord w)) (writeSet (decodeWord w)) s.advance u ∧ u.fault = .noFault ∧ t = u.tail) := by
  have hpc := (State.fetchWord_eq_some.mp hw).1
  rcases step_running_cases hs h with ⟨hpc', -⟩ | ⟨w', c, hw', hc, ht⟩ | ⟨w', u, hw', -, hx, hfr, hu, ht⟩
  · omega
  · cases hw.symm.trans hw'
    exact .inl ⟨c, hc, ht⟩
  · cases hw.symm.trans hw'
    exact .inr ⟨u, hx, hfr, hu, ht⟩

/-- What a whole cycle may write: what its handler may, and `pc`, the timers, `prev_mask` and the latch
(40_cycle_driver.md R84). -/
theorem step_frame (hs : s.fault = .noFault) (hw : s.fetchWord = some w) (h : step s = .next t) :
    Frame (regWriteSet (decodeWord w)) ([.pc, .dt, .st, .prevMask, .fault] ++ writeSet (decodeWord w)) s t := by
  rcases step_fetched_cases hs hw h with ⟨c, -, rfl⟩ | ⟨u, -, hfr, -, rfl⟩
  · simp [Frame]
  · obtain ⟨hreg, hi, -, hstack, hsp, hmem, -, -, hdisp, hmask, -, -, hdraws⟩ := hfr
    have outside {f : Field} (hf : f ∉ [.pc, .dt, .st, .prevMask, .fault] ++ writeSet (decodeWord w)) :
        f ∉ writeSet (decodeWord w) := fun hf' => hf (List.mem_append_right _ hf')
    exact ⟨hreg, fun hf => hi (outside hf), fun hf => absurd (by simp) hf, fun hf => hstack (outside hf),
      fun hf => hsp (outside hf), fun hf => hmem (outside hf), fun hf => absurd (by simp) hf,
      fun hf => absurd (by simp) hf, fun hf => hdisp (outside hf), fun hf => hmask (outside hf),
      fun hf => absurd (by simp) hf, fun hf => absurd (by simp) hf, fun hf => hdraws (outside hf)⟩

/-! ## Which instructions write a field -/

theorem pc_mem_writeSet (h : Field.pc ∈ writeSet i) :
    i = .ret ∨ (∃ nnn, i = .call nnn) ∨ (∃ nnn, i = .jp nnn) ∨ (∃ nnn, i = .jpV0 nnn) ∨ (∃ x kk, i = .seVxKk x kk) ∨
    (∃ x kk, i = .sneVxKk x kk) ∨ (∃ x y n, i = .seVxVy x y n) ∨ (∃ x y n, i = .sneVxVy x y n) ∨ (∃ x, i = .skp x) ∨
    (∃ x, i = .sknp x) ∨ ∃ x, i = .ldVxK x := by
  cases i <;> simp [writeSet] at h ⊢

theorem stack_mem_writeSet (h : Field.stack ∈ writeSet i) : ∃ nnn, i = .call nnn := by
  cases i <;> simp [writeSet] at h ⊢

theorem sp_mem_writeSet (h : Field.sp ∈ writeSet i) : i = .ret ∨ ∃ nnn, i = .call nnn := by
  cases i <;> simp [writeSet] at h ⊢

theorem disp_mem_writeSet (h : Field.disp ∈ writeSet i) : i = .cls ∨ ∃ x y n, i = .drw x y n := by
  cases i <;> simp [writeSet] at h ⊢

theorem i_mem_writeSet (h : Field.i ∈ writeSet i) :
    (∃ nnn, i = .ldI nnn) ∨ (∃ x, i = .addIVx x) ∨ (∃ x, i = .ldFVx x) ∨ (∃ x, i = .ldMemVx x) ∨ ∃ x, i = .ldVxMem x := by
  cases i <;> simp [writeSet] at h ⊢

theorem dt_mem_writeSet (h : Field.dt ∈ writeSet i) : ∃ x, i = .ldDtVx x := by
  cases i <;> simp [writeSet] at h ⊢

theorem draws_mem_writeSet (h : Field.draws ∈ writeSet i) : (∃ x kk, i = .rnd x kk) ∨ ∃ x, i = .ldVxK x := by
  cases i <;> simp [writeSet] at h ⊢

theorem inputMask_notMem_writeSet (i : Instr) : Field.inputMask ∉ writeSet i := by
  cases i <;> simp [writeSet]

/-! ## The return and the call in full -/

/-- All that a return can do (41_flow.md R101). -/
theorem exec_ret_cases (h : exec .ret s = .next t) :
    (s.sp.val = 0 ∧ t = (s.setPc (s.pc - 2#16)).enterFault .stackUnderflow) ∨
    ∃ _ : 0 < s.sp.val, t = { s with sp := ⟨s.sp.val - 1, by omega⟩, pc := s.stack[s.sp.val - 1] } := by
  by_cases hsp : s.sp.val = 0
  · simp only [exec, execRet, State.pop_of_empty hsp] at h
    exact .inl ⟨hsp, (Host.Outcome.next.inj h).symm⟩
  · have hpos : 0 < s.sp.val := by omega
    simp only [exec, execRet, State.pop, hpos, dif_pos] at h
    exact .inr ⟨hpos, (Host.Outcome.next.inj h).symm⟩

/-- All that a call can do (41_flow.md R103). -/
theorem exec_call_cases {nnn : Addr12} (h : exec (.call nnn) s = .next t) :
    (s.sp.val = 16 ∧ t = (s.setPc (s.pc - 2#16)).enterFault .stackOverflow) ∨
    ∃ hsp : s.sp.val < 16,
      t = { s with stack := s.stack.set s.sp.val s.pc, sp := ⟨s.sp.val + 1, by omega⟩, pc := zextAddr nnn } := by
  by_cases hsp : s.sp.val = 16
  · simp only [exec, execCall, State.push_of_full hsp] at h
    exact .inl ⟨hsp, (Host.Outcome.next.inj h).symm⟩
  · have hlt : s.sp.val < 16 := by omega
    simp only [exec, execCall, State.push, hlt, dif_pos] at h
    exact .inr ⟨hlt, (Host.Outcome.next.inj h).symm⟩

/-! ## The memory, `pc` and the stack after a handler -/

/-- All that a handler can do to the memory: nothing, or store bytes from `I` up within addresses 0 to 4095. -/
theorem exec_mem_cases (h : exec i s = .next t) :
    t.mem = s.mem ∨
    ∃ bytes : List Byte, s.i.toNat + bytes.length ≤ 4096 ∧ t.mem = s.mem.writeList s.i.toNat bytes := by
  cases i
  case ldBVx x =>
    cases hm : s.mem.writeRange s.i.toNat (decimalDigits (s.reg x)) with
    | none => simp only [exec, execLdBVx, hm] at h; cases h; exact .inl rfl
    | some m =>
      obtain ⟨hr, hm'⟩ := Memory.writeRange_eq_some.mp hm
      simp only [exec, execLdBVx, hm] at h; cases h
      exact .inr ⟨_, by simpa [decimalDigits] using hr, hm'⟩
  case ldMemVx x =>
    cases hm : s.mem.writeRange s.i.toNat (s.regsUpTo x) with
    | none => simp only [exec, execLdMemVx, hm] at h; cases h; exact .inl rfl
    | some m =>
      obtain ⟨hr, hm'⟩ := Memory.writeRange_eq_some.mp hm
      simp only [exec, execLdMemVx, hm] at h; cases h
      exact .inr ⟨_, by simpa using hr, hm'⟩
  case ldVxMem x =>
    cases hm : s.mem.readRange s.i.toNat (x.toNat + 1) with
    | none => simp only [exec, execLdVxMem, hm] at h; cases h; exact .inl rfl
    | some bytes =>
      simp only [exec, execLdVxMem, hm] at h; cases h
      exact .inl (by rw [State.setRegsFrom_eq]; rfl)
  case drw x y n =>
    cases hm : s.mem.readRange s.i.toNat n.toNat <;> simp only [exec, execDrw, hm] at h <;> cases h <;> exact .inl rfl
  case ret =>
    rcases exec_ret_cases h with ⟨-, rfl⟩ | ⟨-, rfl⟩ <;> exact .inl rfl
  case call nnn =>
    rcases exec_call_cases h with ⟨-, rfl⟩ | ⟨-, rfl⟩ <;> exact .inl rfl
  case ldVxK x =>
    cases hk : keyChange s.inputMask s.prevMask <;> simp only [exec, execLdVxK, hk] at h <;> cases h <;> exact .inl rfl
  case seVxKk | sneVxKk | seVxVy | sneVxVy | skp | sknp =>
    cases h
    exact .inl (by simp [State.skipIf_eq])
  all_goals cases h; exact .inl rfl

/-- A skip leaves `pc` at the following instruction or the one after it (42_skips.md R114). -/
theorem State.skipIf_pc_cases (s : State) (c : Bool) : (s.skipIf c).pc = s.pc ∨ (s.skipIf c).pc = s.pc + 2#16 := by
  cases c
  · exact .inl rfl
  · exact .inr rfl

/-- The target of the jump with offset does not wrap (41_flow.md R104), so it is at most 0x10FE (10_state.md R13). -/
theorem toNat_zextAddr_add_zextByte (nnn : Addr12) (b : Byte) :
    (zextAddr nnn + zextByte b).toNat = nnn.toNat + b.toNat := by
  simp only [zextAddr, zextByte, BitVec.toNat_add, BitVec.toNat_setWidth]
  omega

theorem toNat_zextAddr (nnn : Addr12) : (zextAddr nnn).toNat = nnn.toNat := by
  simp only [zextAddr, BitVec.toNat_setWidth]
  omega

/-- All that a handler can do to `pc`: leave it, skip, take the advance back (a fault or a key-wait), go to an address that an
instruction can name, or return to a stack entry (10_state.md R13). -/
theorem exec_pc_cases (h : exec i s = .next t) :
    t.pc = s.pc ∨ t.pc = s.pc + 2#16 ∨ t.pc = s.pc - 2#16 ∨ t.pc.toNat ≤ 0x10FE ∨ ∃ k, ∃ hk : k < 16, t.pc = s.stack[k] := by
  rcases exec_next_cases h with ⟨c, -, rfl⟩ | ⟨hc, hfr⟩
  · exact .inr (.inr (.inl rfl))
  by_cases hpc : Field.pc ∈ writeSet i
  case neg => exact .inl (hfr.pc_eq hpc)
  cases i <;> simp only [writeSet, List.mem_cons, List.not_mem_nil, reduceCtorEq, or_false] at hpc
  case ret =>
    rcases exec_ret_cases h with ⟨-, rfl⟩ | ⟨hsp, rfl⟩
    · exact .inr (.inr (.inl rfl))
    · exact .inr (.inr (.inr (.inr ⟨_, _, rfl⟩)))
  case call nnn =>
    rcases exec_call_cases h with ⟨-, rfl⟩ | ⟨hsp, rfl⟩
    · exact .inr (.inr (.inl rfl))
    · have := toNat_zextAddr nnn
      exact .inr (.inr (.inr (.inl (by simp only; omega))))
  case jp nnn =>
    cases h
    have := toNat_zextAddr nnn
    exact .inr (.inr (.inr (.inl (by simp only [State.setPc_pc]; omega))))
  case jpV0 nnn =>
    cases h
    have := toNat_zextAddr_add_zextByte nnn (s.reg V0)
    exact .inr (.inr (.inr (.inl (by simp only [State.setPc_pc]; omega))))
  case seVxKk | sneVxKk | seVxVy | sneVxVy | skp | sknp =>
    cases h
    exact (State.skipIf_pc_cases s _).imp_right .inl
  case ldVxK x =>
    cases hk : keyChange s.inputMask s.prevMask <;> simp only [exec, execLdVxK, hk] at h <;> cases h
    · exact .inr (.inr (.inl rfl))
    · exact .inl rfl
    · exact .inl rfl

/-- All that a handler can do to the stack and `SP`: nothing, pop, or push `pc` (10_state.md R14, R15). -/
theorem exec_stack_cases (h : exec i s = .next t) :
    (t.stack = s.stack ∧ t.sp = s.sp) ∨
    (i = .ret ∧ t.stack = s.stack ∧ t.sp.val + 1 = s.sp.val) ∨
    ∃ nnn, i = .call nnn ∧ ∃ _ : s.sp.val < 16, t.stack = s.stack.set s.sp.val s.pc ∧ t.sp.val = s.sp.val + 1 := by
  rcases exec_next_cases h with ⟨c, -, rfl⟩ | ⟨-, hfr⟩
  · exact .inl ⟨rfl, rfl⟩
  by_cases hsp : Field.sp ∈ writeSet i
  case neg =>
    have hstack : Field.stack ∉ writeSet i := fun hmem => hsp (by obtain ⟨nnn, rfl⟩ := stack_mem_writeSet hmem; simp [writeSet])
    exact .inl ⟨hfr.stack_eq hstack, hfr.sp_eq hsp⟩
  rcases sp_mem_writeSet hsp with rfl | ⟨nnn, rfl⟩
  · rcases exec_ret_cases h with ⟨-, rfl⟩ | ⟨hpos, rfl⟩
    · exact .inl ⟨rfl, rfl⟩
    · exact .inr (.inl ⟨rfl, rfl, by simp only; omega⟩)
  · rcases exec_call_cases h with ⟨-, rfl⟩ | ⟨hlt, rfl⟩
    · exact .inl ⟨rfl, rfl⟩
    · exact .inr (.inr ⟨nnn, rfl, hlt, rfl, rfl⟩)

/-! ## The invariant -/

theorem State.Inv.memWf_exec (hinv : s.Inv) (h : exec i s.advance = .next t) : t.mem.wf = true := by
  rcases exec_mem_cases h with hm | ⟨bytes, hb, hm⟩
  · rw [hm]; exact hinv.memWf
  · rw [hm]; exact Memory.writeList_wf hinv.memWf (.inr hb)

/-- The fetch bounds `pc` by 4094, so that no handler's `pc` wraps. -/
theorem State.Inv.pcBound_exec (hinv : s.Inv) (hpc : s.pc.toNat ≤ 4094) (h : exec i s.advance = .next t) :
    t.pc.toNat ≤ 0x10FE := by
  rcases exec_pc_cases h with ht | ht | ht | ht | ⟨k, hk, ht⟩
  · rw [ht, State.advance_pc]; bv_omega
  · rw [ht, State.advance_pc]; bv_omega
  · rw [ht, State.advance_pc]; bv_omega
  · exact ht
  · have := hinv.stackBound k hk
    rw [ht, State.advance_stack]; omega

/-- A call saves the address after itself, and it is fetched at 0xFFE at most (60_exceptions.md R176). -/
theorem State.Inv.stackBound_exec (hinv : s.Inv) (hpc : s.pc.toNat ≤ 4094) (h : exec i s.advance = .next t) (k : Nat)
    (hk : k < 16) : t.stack[k].toNat ≤ 0x1000 := by
  have hold := hinv.stackBound k hk
  rcases exec_stack_cases h with ⟨ht, -⟩ | ⟨-, ht, -⟩ | ⟨nnn, -, hsp, ht, -⟩
  · simpa only [ht, State.advance_stack] using hold
  · simpa only [ht, State.advance_stack] using hold
  · simp only [ht, State.advance_stack, State.advance_sp, State.advance_pc, Vector.getElem_set]
    split
    · bv_omega
    · exact hold

theorem State.Inv.enterFault (hinv : s.Inv) (c : FaultCode) : (s.enterFault c).Inv :=
  ⟨hinv.memWf, hinv.pcBound, hinv.stackBound⟩

theorem State.Inv.finish (hinv : s.Inv) : s.finish.Inv := by
  unfold State.finish
  split
  · exact ⟨hinv.memWf, hinv.pcBound, hinv.stackBound⟩
  · exact hinv

/-- Settles O17: the three ways a step can end (`step_cases`), and for a handler the three parts of the invariant. -/
theorem stepKeepsTheInvariant : Obligations.StepKeepsTheInvariant := by
  intro s t hinv h
  rcases step_cases h with ⟨-, rfl⟩ | ⟨-, -, rfl⟩ | ⟨w, u, -, hw, hx, rfl⟩
  · exact hinv
  · exact hinv.enterFault _
  · have hpc := (State.fetchWord_eq_some.mp hw).1
    have hu : u.Inv := ⟨hinv.memWf_exec hx, hinv.pcBound_exec hpc hx, hinv.stackBound_exec hpc hx⟩
    exact hu.finish

/-! ## The delay timer -/

@[simp] theorem toNat_tick (b : Byte) : (tick b).toNat = b.toNat - 1 := by
  unfold tick
  split <;> bv_omega

/-- A cycle that completes and does not write `DT` takes one off it, and nothing at zero (40_cycle_driver.md R85). -/
theorem step_dt (hs : s.fault = .noFault) (h : step s = .next t) (ht : t.fault = .noFault)
    (hi : ∀ w, s.fetchWord = some w → ∀ x, decodeWord w ≠ .ldDtVx x) : t.dt.toNat = s.dt.toNat - 1 := by
  rcases step_running_cases hs h with ⟨-, rfl⟩ | ⟨w, c, -, hc, rfl⟩ | ⟨w, u, hw, -, -, hfr, -, rfl⟩
  · cases ht
  · exact absurd ht hc.ne_noFault
  · have hdt : Field.dt ∉ writeSet (decodeWord w) := fun hmem =>
      let ⟨x, hx⟩ := dt_mem_writeSet hmem
      hi w hw x hx
    rw [State.tail_dt, toNat_tick, hfr.dt_eq hdt, State.advance_dt]

/-- Settles O10, by induction on the number of cycles, with `step_dt` for the last one. -/
theorem delayTimerCountsCycles : Obligations.DelayTimerCountsCycles := by
  intro n trace h
  induction n with
  | zero => rfl
  | succ n ih =>
    obtain ⟨hs, hstep, ht, hi⟩ := h n (Nat.lt_succ_self n)
    have hlast := step_dt hs hstep ht hi
    have hbefore := ih fun k hk => h k (Nat.lt_succ_of_lt hk)
    omega

/-! ## Who writes the stack, the display, `I`, `input_mask` and the registers -/

/-- All that a cycle can do to the stack and `SP`: nothing, pop, or push the address after the call. -/
theorem step_stack_cases (hs : s.fault = .noFault) (hw : s.fetchWord = some w) (h : step s = .next t) :
    (t.stack = s.stack ∧ t.sp = s.sp) ∨
    (decodeWord w = .ret ∧ t.stack = s.stack ∧ t.sp.val + 1 = s.sp.val) ∨
    ∃ nnn, decodeWord w = .call nnn ∧ ∃ _ : s.sp.val < 16,
      t.stack = s.stack.set s.sp.val (s.pc + 2#16) ∧ t.sp.val = s.sp.val + 1 := by
  rcases step_fetched_cases hs hw h with ⟨c, -, rfl⟩ | ⟨u, hx, -, -, rfl⟩
  · exact .inl ⟨rfl, rfl⟩
  · exact exec_stack_cases hx

/-- Settles O49, clause by clause for the three things a cycle can do to the stack (`step_stack_cases`). -/
theorem onlyCallAndReturnChangeTheStack : Obligations.OnlyCallAndReturnChangeTheStack := by
  intro s t w hs hw h
  rcases step_stack_cases hs hw h with ⟨hstack, hsp⟩ | ⟨hi, hstack, hsp⟩ | ⟨nnn, hi, hlt, hstack, hsp⟩
  · exact ⟨fun _ => hstack, fun _ _ => hsp, fun k hk _ => by simp only [hstack], by omega, by omega⟩
  · exact ⟨fun _ => hstack, fun _ hret => absurd hi hret, fun k hk _ => by simp only [hstack], by omega, by omega⟩
  · refine ⟨fun hcall => absurd hi (hcall nnn), fun hcall => absurd hi (hcall nnn), fun k hk hne => ?_, by omega, by omega⟩
    simp only [hstack]
    exact Vector.getElem_set_ne _ _ (Ne.symm hne)

/-- Settles O50: the three fields are outside the frame of a cycle unless the instruction is one of their writers. -/
theorem writersOfDisplayIndexAndInputMask : Obligations.WritersOfDisplayIndexAndInputMask := by
  intro s t w hs hw h
  have hfr := step_frame hs hw h
  refine ⟨fun hcls hdrw => hfr.disp_eq ?_, fun hldI hadd hldF hst hld => hfr.i_eq ?_, hfr.inputMask_eq ?_⟩
  · suffices Field.disp ∉ writeSet (decodeWord w) by simpa
    intro hmem
    rcases disp_mem_writeSet hmem with hi | ⟨x, y, n, hi⟩
    · exact hcls hi
    · exact hdrw x y n hi
  · suffices Field.i ∉ writeSet (decodeWord w) by simpa
    intro hmem
    rcases i_mem_writeSet hmem with ⟨nnn, hi⟩ | ⟨x, hi⟩ | ⟨x, hi⟩ | ⟨x, hi⟩ | ⟨x, hi⟩
    · exact hldI nnn hi
    · exact hadd x hi
    · exact hldF x hi
    · exact hst x hi
    · exact hld x hi
  · simpa using inputMask_notMem_writeSet (decodeWord w)

theorem flagByte_cases (f : Bool) : flagByte f = 0#8 ∨ flagByte f = 1#8 := by
  cases f
  · exact .inl rfl
  · exact .inr rfl

/-- A flag writer that does not fault writes its flag last, so that `VF` holds it even where `VF` is the destination
(43_load_alu.md R132). -/
theorem exec_flag (h : exec i s = .next t) (hi : writesFlag i = true) (ht : t.fault = .noFault) :
    ∃ f, t.reg VF = flagByte f := by
  cases i <;> simp only [writesFlag, Bool.false_eq_true] at hi
  case drw x y n =>
    cases hm : s.mem.readRange s.i.toNat n.toNat with
    | none => simp only [exec, execDrw, hm] at h; cases h; cases ht
    | some rows =>
      simp only [exec, execDrw, hm] at h; cases h
      exact ⟨_, State.reg_setReg_self _ _ _⟩
  case addVxVy | subVxVy | shrVx | subnVxVy | shlVx =>
    cases h
    exact ⟨_, State.reg_setReg_self _ _ _⟩

/-- Settles O51: the registers by the frame of a cycle, the flag by `exec_flag`. -/
theorem registerWritersAndTheFlag : Obligations.RegisterWritersAndTheFlag := by
  intro s t w hs hw h
  constructor
  · intro r hdest hflag
    refine (step_frame hs hw h).reg_eq fun hmem => ?_
    rcases mem_regWriteSet.mp hmem with hr | ⟨rfl, hf⟩
    · simp [hdest] at hr
    · simp [hflag rfl] at hf
  · intro hi ht
    rcases step_fetched_cases hs hw h with ⟨c, hc, rfl⟩ | ⟨u, hx, -, hu, rfl⟩
    · exact absurd ht hc.ne_noFault
    · obtain ⟨f, hf⟩ := exec_flag hx hi hu
      rw [State.tail_reg, hf]
      exact flagByte_cases f

/-! ## Falling through -/

/-- A cycle that completes and whose instruction does not write `pc` adds 2 to it, without wrap since the fetch bounds it
(40_cycle_driver.md R82). -/
theorem step_pc_of_notMem_writeSet (hs : s.fault = .noFault) (hw : s.fetchWord = some w) (h : step s = .next t)
    (ht : t.fault = .noFault) (hi : Field.pc ∉ writeSet (decodeWord w)) : t.pc.toNat = s.pc.toNat + 2 := by
  have hpc := (State.fetchWord_eq_some.mp hw).1
  rcases step_fetched_cases hs hw h with ⟨c, hc, rfl⟩ | ⟨u, -, hfr, -, rfl⟩
  · exact absurd ht hc.ne_noFault
  · rw [State.tail_pc, hfr.pc_eq hi, State.advance_pc]
    bv_omega

/-- Settles O52: the listed instructions are the ones with `pc` in their write set (`pc_mem_writeSet`). -/
theorem otherInstructionsFallThrough : Obligations.OtherInstructionsFallThrough := by
  intro s t w hs hw h ht hret hjp hcall hjpV0 hse hsne hseV hsneV hskp hsknp hkey
  refine step_pc_of_notMem_writeSet hs hw h ht fun hmem => ?_
  rcases pc_mem_writeSet hmem with hi | ⟨nnn, hi⟩ | ⟨nnn, hi⟩ | ⟨nnn, hi⟩ | ⟨x, kk, hi⟩ | ⟨x, kk, hi⟩ | ⟨x, y, n, hi⟩ |
    ⟨x, y, n, hi⟩ | ⟨x, hi⟩ | ⟨x, hi⟩ | ⟨x, hi⟩
  · exact hret hi
  · exact hcall nnn hi
  · exact hjp nnn hi
  · exact hjpV0 nnn hi
  · exact hse x kk hi
  · exact hsne x kk hi
  · exact hseV x y n hi
  · exact hsneV x y n hi
  · exact hskp x hi
  · exact hsknp x hi
  · exact hkey x hi

/-! ## The count of draws -/

/-- The state with another count of draws (the model's own field, log entry 3). -/
def State.setDraws (s : State) (n : Nat) : State := { s with draws := n }

@[simp] theorem State.setDraws_i (s : State) (n : Nat) : (s.setDraws n).i = s.i := rfl
@[simp] theorem State.setDraws_pc (s : State) (n : Nat) : (s.setDraws n).pc = s.pc := rfl
@[simp] theorem State.setDraws_mem (s : State) (n : Nat) : (s.setDraws n).mem = s.mem := rfl
@[simp] theorem State.setDraws_reg (s : State) (n : Nat) (r : Reg) : (s.setDraws n).reg r = s.reg r := rfl
@[simp] theorem State.setDraws_regsUpTo (s : State) (n : Nat) (x : Reg) : (s.setDraws n).regsUpTo x = s.regsUpTo x := rfl

theorem State.setRegsFrom_setDraws (s : State) (n k : Nat) (bytes : List Byte) :
    (s.setDraws n).setRegsFrom k bytes = (s.setRegsFrom k bytes).setDraws n := by
  induction bytes generalizing s k with
  | nil => rfl
  | cons b bs ih => exact ih (s.setReg (BitVec.ofNat 4 k) b) (k + 1)

theorem State.skipIf_setDraws (s : State) (n : Nat) (c : Bool) : (s.setDraws n).skipIf c = (s.skipIf c).setDraws n := by
  cases c <;> rfl

theorem State.push_setDraws (s : State) (n : Nat) (ret : Word) :
    (s.setDraws n).push ret = (s.push ret).map (·.setDraws n) := by
  unfold State.push
  by_cases hsp : s.sp.val < 16 <;> simp [State.setDraws, hsp]

theorem State.pop_setDraws (s : State) (n : Nat) :
    (s.setDraws n).pop = s.pop.map fun p => (p.1, p.2.setDraws n) := by
  unfold State.pop
  by_cases hsp : 0 < s.sp.val <;> simp [State.setDraws, hsp]

/-- A handler other than `RND` and the key-wait commutes with a change of the count of draws. -/
theorem exec_setDraws (n : Nat) (hrnd : ∀ x kk, i ≠ .rnd x kk) (hkey : ∀ x, i ≠ .ldVxK x) (h : exec i s = .next t) :
    exec i (s.setDraws n) = .next (t.setDraws n) := by
  cases i
  case rnd x kk => exact absurd rfl (hrnd x kk)
  case ldVxK x => exact absurd rfl (hkey x)
  case ret =>
    cases hp : s.pop <;> simp only [exec, execRet, State.pop_setDraws, hp] at h ⊢ <;> cases h <;> rfl
  case call nnn =>
    cases hp : s.push s.pc <;>
      simp only [exec, execCall, State.setDraws_pc, State.push_setDraws, hp] at h ⊢ <;> cases h <;> rfl
  case ldBVx x =>
    cases hm : s.mem.writeRange s.i.toNat (decimalDigits (s.reg x)) <;>
      simp only [exec, execLdBVx, State.setDraws_mem, State.setDraws_i, State.setDraws_reg, hm] at h ⊢ <;> cases h <;> rfl
  case ldMemVx x =>
    cases hm : s.mem.writeRange s.i.toNat (s.regsUpTo x) <;>
      simp only [exec, execLdMemVx, State.setDraws_mem, State.setDraws_i, State.setDraws_regsUpTo, hm] at h ⊢ <;>
      cases h <;> rfl
  case ldVxMem x =>
    cases hm : s.mem.readRange s.i.toNat (x.toNat + 1) <;>
      simp only [exec, execLdVxMem, State.setDraws_mem, State.setDraws_i, State.setRegsFrom_setDraws, hm] at h ⊢ <;>
      cases h <;> rfl
  case drw x y nRows =>
    cases hm : s.mem.readRange s.i.toNat nRows.toNat <;>
      simp only [exec, execDrw, State.setDraws_mem, State.setDraws_i, hm] at h ⊢ <;> cases h <;> rfl
  case seVxKk | sneVxKk | seVxVy | sneVxVy | skp | sknp =>
    cases h
    exact congrArg Host.Outcome.next (State.skipIf_setDraws s n _)
  all_goals cases h; rfl

theorem exec_draws (hrnd : ∀ x kk, i ≠ .rnd x kk) (hkey : ∀ x, i ≠ .ldVxK x) (h : exec i s = .next t) :
    t.draws = s.draws := by
  rcases exec_next_cases h with ⟨c, -, rfl⟩ | ⟨-, hfr⟩
  · rfl
  · refine hfr.draws_eq fun hmem => ?_
    rcases draws_mem_writeSet hmem with ⟨x, kk, hi⟩ | ⟨x, hi⟩
    · exact hrnd x kk hi
    · exact hkey x hi

/-- Settles O53: the handler leaves the count (`exec_draws`) and commutes with any change of it (`exec_setDraws`). -/
theorem drawCountReachesOnlyRandomAndKeyWait : Obligations.DrawCountReachesOnlyRandomAndKeyWait := by
  intro i s n hrnd hkey
  obtain ⟨t, h⟩ := exec_next i s
  exact ⟨t, h, exec_draws hrnd hkey h, exec_setDraws n hrnd hkey h⟩

/-! ## Reset -/

/-- `State.reset` is the reset state of the machine with the default font. -/
theorem State.resetWith_defaultFont : State.resetWith defaultParams.font = State.reset := by decide

theorem State.reset_reg (r : Reg) : State.reset.reg r = 0#8 := by
  simp [State.reg, State.reset]

theorem State.reset_stack (k : Nat) (hk : k < 16) : State.reset.stack[k] = 0#16 := by
  simp [State.reset]

theorem State.resetWith_inv (font : Vector Byte 80) : (State.resetWith font).Inv where
  memWf := State.wf_mem_resetWith font
  pcBound := by
    have hpc : (State.resetWith font).pc = 0x200#16 := rfl
    rw [hpc]
    decide
  stackBound k hk := by
    have hstack : (State.resetWith font).stack[k] = 0#16 := State.reset_stack k hk
    rw [hstack]
    decide

/-- Settles O16: the default font is one of all fonts. -/
theorem invariantHoldsAtReset : Obligations.InvariantHoldsAtReset :=
  ⟨State.resetWith_defaultFont ▸ State.resetWith_inv defaultParams.font, State.resetWith_inv⟩

/-- Settles O15: the font changes the memory only, and the bytes of the memory are those of the laws of reset. -/
theorem resetValues : Obligations.ResetValues := by
  refine ⟨⟨defaultParams.font, State.resetWith_defaultFont.symm⟩, ?_⟩
  rintro font s rfl
  exact ⟨State.reset_reg, rfl, rfl, rfl, State.reset_stack, fun _ h => State.read_resetWith_font font h,
    fun _ h => State.read_resetWith_above font h, rfl, rfl, Display.pixel_dark, rfl, rfl, rfl⟩

end Sys2Proof.Machine
end

section
/-! PROOFS. The statements about the memory (20_memory.md): storage and its canonical form, the stores of the machine and
what they leave alone, and the fetch of a stored word. -/

namespace Sys2Proof.Machine

variable {m m' : Memory} {i : Instr} {s t : State} {w : Word} {x : Reg} {lo lo' k : Nat} {b : Byte}

/-! ## Storage and its canonical form -/

/-- Settles O19, by the laws of memory. -/
theorem memoryReadsTheLastByteWritten : Obligations.MemoryReadsTheLastByteWritten := by
  intro m a b hm ha
  exact ⟨Memory.wf_write hm (by omega), Memory.read_write_self hm, fun _ hne => Memory.read_write_of_ne hne⟩

@[simp] theorem Memory.read_cons_self (m : Memory) (k : Nat) (b : Byte) : Memory.read ((k, b) :: m) k = b :=
  if_pos rfl

theorem Memory.read_cons_of_ne {a : Nat} (h : a ≠ k) : Memory.read ((k, b) :: m) a = m.read a := if_neg h

/-- The first listed address of a memory is within the bounds of every canonical memory that reads alike, because a listed
byte differs from the reset contents. -/
theorem Memory.le_of_read_eq (hm : Memory.wfFrom lo ((k, b) :: m) = true) (hm' : Memory.wfFrom lo' m' = true)
    (h : ∀ a, a ≤ 4095 → Memory.read ((k, b) :: m) a = m'.read a) : lo' ≤ k := by
  obtain ⟨-, hk, hb, -⟩ := Memory.wfFrom_cons.mp hm
  by_contra hlt
  refine hb ?_
  calc b = Memory.read ((k, b) :: m) k := (Memory.read_cons_self m k b).symm
    _ = m'.read k := h k (by omega)
    _ = unlisted k := Memory.read_below hm' (by omega)

theorem Memory.eq_of_read_eq (hm : Memory.wfFrom lo m = true) (hm' : Memory.wfFrom lo m' = true)
    (h : ∀ a, a ≤ 4095 → m.read a = m'.read a) : m = m' := by
  induction m generalizing lo m' with
  | nil =>
    cases m' with
    | nil => rfl
    | cons c' m' =>
      obtain ⟨-, hk', -⟩ := Memory.wfFrom_cons.mp hm'
      have := Memory.le_of_read_eq (lo' := 4096) (m' := []) hm' rfl fun a ha => (h a ha).symm
      omega
  | cons c m ih =>
    obtain ⟨k, b⟩ := c
    obtain ⟨-, hk, hb, htail⟩ := Memory.wfFrom_cons.mp hm
    cases m' with
    | nil =>
      have := Memory.le_of_read_eq (lo' := 4096) (m' := []) hm rfl h
      omega
    | cons c' m' =>
      obtain ⟨k', b'⟩ := c'
      obtain ⟨-, hk', hb', htail'⟩ := Memory.wfFrom_cons.mp hm'
      have hle : k' ≤ k := Memory.le_of_read_eq hm (Memory.wfFrom_cons.mpr ⟨le_rfl, hk', hb', htail'⟩) h
      have hge : k ≤ k' :=
        Memory.le_of_read_eq hm' (Memory.wfFrom_cons.mpr ⟨le_rfl, hk, hb, htail⟩) fun a ha => (h a ha).symm
      obtain rfl : k = k' := by omega
      have hbyte : b = b' := by simpa using h k (by omega)
      have hrest : m = m' := by
        refine ih htail htail' fun a ha => ?_
        by_cases hak : a = k
        · rw [Memory.read_below htail (by omega), Memory.read_below htail' (by omega)]
        · simpa only [Memory.read_cons_of_ne hak] using h a ha
      rw [hbyte, hrest]

/-- Settles O20: the whole memories are canonical from address 0. -/
theorem equalReadingMemoriesAreEqual : Obligations.EqualReadingMemoriesAreEqual :=
  fun _ _ hm hm' h => Memory.eq_of_read_eq hm hm' h

/-! ## The two stores -/

/-- `LD B` with its whole range in memory stores the three digits (44_index_memory.md R143). -/
theorem exec_ldBVx_of_le (h : s.i.toNat + 3 ≤ 4096) :
    exec (.ldBVx x) s = .next (s.setMem (s.mem.writeList s.i.toNat (decimalDigits (s.reg x)))) := by
  have hm : s.mem.writeRange s.i.toNat (decimalDigits (s.reg x)) = some _ :=
    Memory.writeRange_eq_some.mpr ⟨.inr h, rfl⟩
  simp only [exec, execLdBVx, hm]

/-- `LD [I]` with its whole range in memory stores the block and moves `I` (44_index_memory.md R144). -/
theorem exec_ldMemVx_of_le (h : s.i.toNat + (x.toNat + 1) ≤ 4096) :
    exec (.ldMemVx x) s =
      .next ((s.setMem (s.mem.writeList s.i.toNat (s.regsUpTo x))).setI (s.i + blockAdvance x)) := by
  have hm : s.mem.writeRange s.i.toNat (s.regsUpTo x) = some _ :=
    Memory.writeRange_eq_some.mpr ⟨.inr (by simpa using h), rfl⟩
  simp only [exec, execLdMemVx, hm]

/-- A block of registers in memory: register `k` at address `I + k`. -/
theorem Memory.read_writeList_regsUpTo {base : Nat} (hm : m.wf = true) (h : base + (x.toNat + 1) ≤ 4096)
    (hk : k ≤ x.toNat) : (m.writeList base (s.regsUpTo x)).read (base + k) = s.reg (BitVec.ofNat 4 k) := by
  have hlt : k < (s.regsUpTo x).length := by simpa using Nat.lt_succ_of_le hk
  rw [Memory.read_writeList_inside hm (by simpa using h) hlt, State.getElem_regsUpTo]

/-! ## The fetch of a stored word -/

/-- The first byte of a word is its high byte (20_memory.md R46). -/
theorem toNat_wordOfBytes (hi lo : Byte) : (wordOfBytes hi lo).toNat = hi.toNat * 256 + lo.toNat := by
  rw [wordOfBytes, BitVec.toNat_append, ← Nat.shiftLeft_add_eq_or_of_lt lo.isLt, Nat.shiftLeft_eq]

/-- Settles O41: the fetch reads the two addresses at which the store put `V0` and `V1`. -/
theorem fetchSeesTheStoredWord : Obligations.FetchSeesTheStoredWord := by
  intro x s hm hx hi
  have hle : s.i.toNat + (x.toNat + 1) ≤ 4096 := by omega
  refine ⟨_, exec_ldMemVx_of_le hle, fun u hmem hpc => ?_⟩
  refine ⟨_, State.fetchWord_eq_some.mpr ⟨by rw [hpc]; omega, rfl⟩, ?_⟩
  have hV0 : u.mem.read s.i.toNat = s.reg V0 := by
    rw [hmem]
    exact Memory.read_writeList_regsUpTo hm hle (Nat.zero_le _)
  have hV1 : u.mem.read (s.i.toNat + 1) = s.reg 0x1 := by
    rw [hmem]
    exact Memory.read_writeList_regsUpTo hm hle hx
  rw [hpc, toNat_wordOfBytes, hV0, hV1]

/-! ## What a cycle leaves unchanged in memory -/

theorem Frame.read_eq {regs : List Reg} {fields : List Field} (h : Frame regs fields s t) (hf : Field.mem ∉ fields)
    (a : Nat) : t.mem.read a = s.mem.read a := by
  obtain ⟨-, -, -, -, -, hmem, -⟩ := h
  exact hmem hf a

theorem mem_mem_writeSet (h : Field.mem ∈ writeSet i) : (∃ x, i = .ldBVx x) ∨ ∃ x, i = .ldMemVx x := by
  cases i <;> simp [writeSet] at h ⊢

/-- A handler that touches data and does not raise has its whole range in memory. -/
theorem le_of_not_raises (hc : ∀ c, ¬Raises i s c) (hd : dataBytes i ≠ 0) : s.i.toNat + dataBytes i ≤ 4096 := by
  by_contra hlt
  exact hc .dataRange (.inr (.inr ⟨hd, by omega, rfl⟩))

/-- A handler changes no byte but the instruction's data bytes from `I` up (the table of 20_memory.md R48). -/
theorem exec_sameMemOutside (h : exec i s = .next t) : SameMemOutside s.i.toNat (dataBytes i) s t := by
  rcases exec_next_cases h with ⟨c, -, rfl⟩ | ⟨hc, hfr⟩
  · exact fun _ _ => rfl
  by_cases hmem : Field.mem ∈ writeSet i
  case neg => exact fun a _ => hfr.read_eq hmem a
  intro a ha
  rcases mem_mem_writeSet hmem with ⟨x, rfl⟩ | ⟨x, rfl⟩
  · rw [exec_ldBVx_of_le (le_of_not_raises hc (by simp [dataBytes]))] at h
    cases h
    exact Memory.read_writeList_outside ha
  · rw [exec_ldMemVx_of_le (le_of_not_raises hc (by simp [dataBytes]))] at h
    cases h
    exact Memory.read_writeList_outside (by simpa [dataBytes] using ha)

/-- Settles O48: a cycle that faults changes the latch only; one that completes has the memory of its handler. -/
theorem onlyTheTwoStoresChangeMemory : Obligations.OnlyTheTwoStoresChangeMemory := by
  intro s t w hs hw h
  rcases step_fetched_cases hs hw h with ⟨c, -, rfl⟩ | ⟨u, hx, hfr, hu, rfl⟩
  · exact ⟨fun _ _ _ => rfl, fun _ _ => rfl, fun _ _ => rfl⟩
  · have hout := exec_sameMemOutside hx
    refine ⟨fun hldB hst a => hfr.read_eq (fun hmem => ?_) a, hout, fun hfault => absurd hu hfault⟩
    rcases mem_mem_writeSet hmem with ⟨x, hi⟩ | ⟨x, hi⟩
    · exact hldB x hi
    · exact hst x hi

end Sys2Proof.Machine
end

section
/-! PROOFS. The statements about the encoding (30_encoding.md): decoding and encoding are inverse to each other, the decoder
is the first match in the opcode table, and which words are no-ops. -/

namespace Sys2Proof

variable {i : Instr} {w : Word} {r r' : OpcodeRow}

/-! ## Unrecognised sub-codes -/

theorem group0Recognised_eq_false {nnn : Addr12} : group0Recognised nnn = false ↔ nnn.toNat ∉ [0x0E0, 0x0EE] := by
  simp [group0Recognised, BitVec.toNat_eq]

theorem group8Recognised_eq_false {n : Nibble} :
    group8Recognised n = false ↔ n.toNat ∉ [0x0, 0x1, 0x2, 0x3, 0x4, 0x5, 0x6, 0x7, 0xE] := by
  simp [group8Recognised, BitVec.toNat_eq, and_assoc]

theorem groupERecognised_eq_false {kk : Byte} : groupERecognised kk = false ↔ kk.toNat ∉ [0x9E, 0xA1] := by
  simp [groupERecognised, BitVec.toNat_eq]

theorem groupFRecognised_eq_false {kk : Byte} :
    groupFRecognised kk = false ↔ kk.toNat ∉ [0x07, 0x0A, 0x15, 0x18, 0x1E, 0x29, 0x33, 0x55, 0x65] := by
  simp [groupFRecognised, BitVec.toNat_eq, and_assoc]

theorem decodeGroup0_unrecognised (h : group0Recognised (fieldNnn w) = false) : decodeGroup0 w = .sys (fieldNnn w) := by
  have hn := group0Recognised_eq_false.mp h
  unfold decodeGroup0
  split <;> simp_all

theorem decodeGroup8_unrecognised (h : group8Recognised (fieldN w) = false) :
    decodeGroup8 w = .nop8 (fieldX w) (fieldY w) (fieldN w) := by
  have hn := group8Recognised_eq_false.mp h
  unfold decodeGroup8
  split <;> simp_all

theorem decodeGroupE_unrecognised (h : groupERecognised (fieldKk w) = false) :
    decodeGroupE w = .nopE (fieldX w) (fieldKk w) := by
  have hk := groupERecognised_eq_false.mp h
  unfold decodeGroupE
  split <;> simp_all

theorem decodeGroupF_unrecognised (h : groupFRecognised (fieldKk w) = false) :
    decodeGroupF w = .nopF (fieldX w) (fieldKk w) := by
  have hk := groupFRecognised_eq_false.mp h
  unfold decodeGroupF
  split <;> simp_all

/-! ## Decoding an encoded instruction -/

/-- The fields of the encoding are the operands (Laws/Decode.lean), so the group and the sub-code select the constructor;
well-formedness is what a catch-all constructor needs. -/
theorem decodeWord_encode (h : i.wf = true) : decodeWord (encode i) = i := by
  cases i
  case cls | ret => rfl
  case sys nnn =>
    have hg : group0Recognised (fieldNnn (0x0#4 ++ nnn)) = false := by simpa [Instr.wf] using h
    simp [encode, decodeWord, decodeGroup0_unrecognised hg]
  case nop8 x y n =>
    have hg : group8Recognised (fieldN (0x8#4 ++ x ++ y ++ n)) = false := by simpa [Instr.wf] using h
    simp [encode, decodeWord, decodeGroup8_unrecognised hg]
  case nopE x kk =>
    have hg : groupERecognised (fieldKk (0xE#4 ++ x ++ kk)) = false := by simpa [Instr.wf] using h
    simp [encode, decodeWord, decodeGroupE_unrecognised hg]
  case nopF x kk =>
    have hg : groupFRecognised (fieldKk (0xF#4 ++ x ++ kk)) = false := by simpa [Instr.wf] using h
    simp [encode, decodeWord, decodeGroupF_unrecognised hg]
  case ldVxVy | orVxVy | andVxVy | xorVxVy | addVxVy | subVxVy | shrVx | subnVxVy | shlVx =>
    simp [encode, decodeWord, decodeGroup8]
  case skp | sknp => simp [encode, decodeWord, decodeGroupE]
  case ldVxDt | ldVxK | ldDtVx | ldStVx | addIVx | ldFVx | ldBVx | ldMemVx | ldVxMem =>
    simp [encode, decodeWord, decodeGroupF]
  all_goals simp [encode, decodeWord]

theorem decodeBytes_bytesOfWord (w : Word) (rest : List Byte) :
    decodeBytes (bytesOfWord w ++ rest) = .ok (decodeWord w, rest) := by
  simp [bytesOfWord, decodeBytes]

/-- Settles O1: `decodeWord_encode` for the word, and the bytes of a word decode as the word does. -/
theorem decodeOfEncodeIsIdentity : Obligations.DecodeOfEncodeIsIdentity := by
  intro i hi
  have hword := decodeWord_encode hi
  exact ⟨hword, fun rest => by rw [encodeBytes, decodeBytes_bytesOfWord, hword]⟩

/-! ## Encoding a decoded word -/

theorem formatA_eq {g : Nibble} {nnn : Addr12} (hg : (groupOf w).toNat = g.toNat)
    (hn : (fieldNnn w).toNat = nnn.toNat) : g ++ nnn = w := by
  rw [← BitVec.eq_of_toNat_eq hg, ← BitVec.eq_of_toNat_eq hn, word_formatA]

theorem formatK_eq {g : Nibble} {kk : Byte} (hg : (groupOf w).toNat = g.toNat)
    (hk : (fieldKk w).toNat = kk.toNat) : g ++ fieldX w ++ kk = w := by
  rw [← BitVec.eq_of_toNat_eq hg, ← BitVec.eq_of_toNat_eq hk, word_formatK]

theorem formatR_eq {g n : Nibble} (hg : (groupOf w).toNat = g.toNat) (hn : (fieldN w).toNat = n.toNat) :
    g ++ fieldX w ++ fieldY w ++ n = w := by
  rw [← BitVec.eq_of_toNat_eq hg, ← BitVec.eq_of_toNat_eq hn, word_formatR]

theorem decodeGroup0_wf_and_encode (hg : (groupOf w).toNat = 0x0) :
    (decodeGroup0 w).wf = true ∧ encode (decodeGroup0 w) = w := by
  by_cases h : group0Recognised (fieldNnn w) = false
  · rw [decodeGroup0_unrecognised h]
    exact ⟨by simp [Instr.wf, h], formatA_eq hg rfl⟩
  · unfold decodeGroup0
    split
    case h_1 hn => exact ⟨rfl, formatA_eq (g := 0x0#4) (nnn := 0x0E0#12) hg hn⟩
    case h_2 hn => exact ⟨rfl, formatA_eq (g := 0x0#4) (nnn := 0x0EE#12) hg hn⟩
    case h_3 => simp_all [group0Recognised_eq_false]

theorem decodeGroup8_wf_and_encode (hg : (groupOf w).toNat = 0x8) :
    (decodeGroup8 w).wf = true ∧ encode (decodeGroup8 w) = w := by
  by_cases h : group8Recognised (fieldN w) = false
  · rw [decodeGroup8_unrecognised h]
    exact ⟨by simp [Instr.wf, h], formatR_eq hg rfl⟩
  · unfold decodeGroup8
    split
    case h_10 => simp_all [group8Recognised_eq_false]
    all_goals next hn => exact ⟨rfl, formatR_eq hg hn⟩

theorem decodeGroupE_wf_and_encode (hg : (groupOf w).toNat = 0xE) :
    (decodeGroupE w).wf = true ∧ encode (decodeGroupE w) = w := by
  by_cases h : groupERecognised (fieldKk w) = false
  · rw [decodeGroupE_unrecognised h]
    exact ⟨by simp [Instr.wf, h], formatK_eq hg rfl⟩
  · unfold decodeGroupE
    split
    case h_3 => simp_all [groupERecognised_eq_false]
    all_goals next hk => exact ⟨rfl, formatK_eq hg hk⟩

theorem decodeGroupF_wf_and_encode (hg : (groupOf w).toNat = 0xF) :
    (decodeGroupF w).wf = true ∧ encode (decodeGroupF w) = w := by
  by_cases h : groupFRecognised (fieldKk w) = false
  · rw [decodeGroupF_unrecognised h]
    exact ⟨by simp [Instr.wf, h], formatK_eq hg rfl⟩
  · unfold decodeGroupF
    split
    case h_10 => simp_all [groupFRecognised_eq_false]
    all_goals next hk => exact ⟨rfl, formatK_eq hg hk⟩

/-- Settles O2, group by group: groups 0, 8, E and F by their own lemmas, every other group by its format. -/
theorem everyWordDecodesAndReencodes : Obligations.EveryWordDecodesAndReencodes := by
  intro w
  unfold decodeWord
  split
  case h_1 hg => exact decodeGroup0_wf_and_encode hg
  case h_9 hg => exact decodeGroup8_wf_and_encode hg
  case h_15 hg => exact decodeGroupE_wf_and_encode hg
  case h_16 =>
    have := (groupOf w).isLt
    simp only [imp_false] at *
    exact decodeGroupF_wf_and_encode (by omega)
  case h_2 | h_3 | h_11 | h_12 => next hg => exact ⟨rfl, formatA_eq hg rfl⟩
  case h_4 | h_5 | h_7 | h_8 | h_13 => next hg => exact ⟨rfl, formatK_eq hg rfl⟩
  case h_6 | h_10 | h_14 => next hg => exact ⟨rfl, formatR_eq hg rfl⟩

/-- Settles O5, by running the decoder. -/
theorem sampleWordsDecode : Obligations.SampleWordsDecode := by
  unfold Obligations.SampleWordsDecode
  decide

/-! ## The first row of the opcode table that takes a word -/

theorem Laws.EncodeMatchesRow.all : ∀ i, Statement i
  | .cls => cls | .ret => ret | .sys nnn => sys nnn | .jp nnn => jp nnn | .call nnn => call nnn
  | .seVxKk x kk => seVxKk x kk | .sneVxKk x kk => sneVxKk x kk | .seVxVy x y n => seVxVy x y n
  | .ldVxKk x kk => ldVxKk x kk | .addVxKk x kk => addVxKk x kk | .ldVxVy x y => ldVxVy x y
  | .orVxVy x y => orVxVy x y | .andVxVy x y => andVxVy x y | .xorVxVy x y => xorVxVy x y
  | .addVxVy x y => addVxVy x y | .subVxVy x y => subVxVy x y | .shrVx x y => shrVx x y
  | .subnVxVy x y => subnVxVy x y | .shlVx x y => shlVx x y | .sneVxVy x y n => sneVxVy x y n
  | .ldI nnn => ldI nnn | .jpV0 nnn => jpV0 nnn | .rnd x kk => rnd x kk | .drw x y n => drw x y n
  | .skp x => skp x | .sknp x => sknp x | .ldVxDt x => ldVxDt x | .ldVxK x => ldVxK x | .ldDtVx x => ldDtVx x
  | .ldStVx x => ldStVx x | .addIVx x => addIVx x | .ldFVx x => ldFVx x | .ldBVx x => ldBVx x
  | .ldMemVx x => ldMemVx x | .ldVxMem x => ldVxMem x | .nop8 x y n => nop8 x y n | .nopE x kk => nopE x kk
  | .nopF x kk => nopF x kk

theorem OpcodeRow.takes_iff : r.takes w = true ↔ w &&& r.mask = r.pattern := by
  simp [OpcodeRow.takes]

/-- The patterns of two rows agree on the bits that both masks fix. -/
def OpcodeRow.overlaps (r r' : OpcodeRow) : Bool := r.pattern &&& r'.mask == r'.pattern &&& r.mask

theorem OpcodeRow.overlaps_of_takes (h : r.takes w = true) (h' : r'.takes w = true) : r.overlaps r' = true := by
  rw [takes_iff] at h h'
  rw [overlaps, beq_iff_eq, ← h, ← h', BitVec.and_assoc, BitVec.and_assoc, BitVec.and_comm r.mask]

theorem OpcodeRow.pattern_eq_of_takes (h : r.takes w = true) (hm : r.mask = 0xFFFF#16) : r.pattern = w := by
  rw [← takes_iff.mp h, hm]
  exact BitVec.and_allOnes

theorem OpcodeRow.fieldN_pattern_of_takes (h : r.takes w = true) (hm : r.mask = 0xF00F#16) :
    fieldN r.pattern = fieldN w := by
  rw [← takes_iff.mp h, hm, and_F00F, fieldN_formatR]

theorem OpcodeRow.fieldKk_pattern_of_takes (h : r.takes w = true) (hm : r.mask = 0xF0FF#16) :
    fieldKk r.pattern = fieldKk w := by
  rw [← takes_iff.mp h, hm, and_F0FF, fieldKk_formatK]

/-- A fact of the table alone (30_encoding.md R78): a row that shares a word with an earlier one is the catch-all of its
group, and the earlier one fixes a recognised sub-code of that group. -/
theorem earlier_row_overlaps : ∀ k : Fin 38, ∀ r ∈ opcodeTable.take k, r.overlaps opcodeTable[k] = true →
    (k.val = 2 ∧ r.mask = 0xFFFF#16 ∧ group0Recognised (fieldNnn r.pattern) = true) ∨
    (k.val = 35 ∧ r.mask = 0xF00F#16 ∧ group8Recognised (fieldN r.pattern) = true) ∨
    (k.val = 36 ∧ r.mask = 0xF0FF#16 ∧ groupERecognised (fieldKk r.pattern) = true) ∨
    (k.val = 37 ∧ r.mask = 0xF0FF#16 ∧ groupFRecognised (fieldKk r.pattern) = true) := by decide

theorem group0_unrecognised_of_rowIndex (hi : i.wf = true) (h : i.rowIndex = 2) :
    group0Recognised (fieldNnn (encode i)) = false := by
  cases i <;> cases h
  simpa [Instr.wf, encode] using hi

theorem group8_unrecognised_of_rowIndex (hi : i.wf = true) (h : i.rowIndex = 35) :
    group8Recognised (fieldN (encode i)) = false := by
  cases i <;> cases h
  simpa [Instr.wf, encode] using hi

theorem groupE_unrecognised_of_rowIndex (hi : i.wf = true) (h : i.rowIndex = 36) :
    groupERecognised (fieldKk (encode i)) = false := by
  cases i <;> cases h
  simpa [Instr.wf, encode] using hi

theorem groupF_unrecognised_of_rowIndex (hi : i.wf = true) (h : i.rowIndex = 37) :
    groupFRecognised (fieldKk (encode i)) = false := by
  cases i <;> cases h
  simpa [Instr.wf, encode] using hi

/-- No row before its own takes the word of a well-formed instruction: such a row would fix the instruction's sub-code to a
recognised one. -/
theorem earlier_row_not_takes (hi : i.wf = true) (hr : r ∈ opcodeTable.take i.rowIndex) : ¬r.takes (encode i) = true := by
  intro htakes
  obtain ⟨own, hown, hown_takes⟩ := Laws.EncodeMatchesRow.all i
  obtain ⟨hlt, rfl⟩ := List.getElem?_eq_some_iff.mp hown
  have hover := OpcodeRow.overlaps_of_takes htakes hown_takes
  rcases earlier_row_overlaps ⟨i.rowIndex, hlt⟩ r hr hover with
    ⟨hk, hm, hrec⟩ | ⟨hk, hm, hrec⟩ | ⟨hk, hm, hrec⟩ | ⟨hk, hm, hrec⟩
  · simp [OpcodeRow.pattern_eq_of_takes htakes hm, group0_unrecognised_of_rowIndex hi hk] at hrec
  · simp [OpcodeRow.fieldN_pattern_of_takes htakes hm, group8_unrecognised_of_rowIndex hi hk] at hrec
  · simp [OpcodeRow.fieldKk_pattern_of_takes htakes hm, groupE_unrecognised_of_rowIndex hi hk] at hrec
  · simp [OpcodeRow.fieldKk_pattern_of_takes htakes hm, groupF_unrecognised_of_rowIndex hi hk] at hrec

theorem firstRow_encode (hi : i.wf = true) : firstRow (encode i) = some i.rowIndex := by
  obtain ⟨own, hown, hown_takes⟩ := Laws.EncodeMatchesRow.all i
  obtain ⟨hlt, rfl⟩ := List.getElem?_eq_some_iff.mp hown
  refine List.findIdx?_eq_some_iff_getElem.mpr ⟨hlt, hown_takes, fun j hj => earlier_row_not_takes hi ?_⟩
  exact List.mem_take_iff_getElem.mpr ⟨j, by omega, rfl⟩

/-- Settles O3: every word is the encoding of the well-formed instruction it decodes to, so `firstRow_encode` applies. -/
theorem decoderTakesFirstTableRow : Obligations.DecoderTakesFirstTableRow := by
  intro w
  obtain ⟨hwf, hencode⟩ := everyWordDecodesAndReencodes w
  calc firstRow w = firstRow (encode (decodeWord w)) := by rw [hencode]
    _ = some (decodeWord w).rowIndex := firstRow_encode hwf

/-! ## Which words are no-ops -/

/-- A word whose group compares a sub-code and does not recognise the word's (30_encoding.md R72). -/
def unrecognisedWord (w : Word) : Bool :=
  (groupOf w == 0x0#4 && !group0Recognised (fieldNnn w)) || (groupOf w == 0x8#4 && !group8Recognised (fieldN w)) ||
  (groupOf w == 0xE#4 && !groupERecognised (fieldKk w)) || (groupOf w == 0xF#4 && !groupFRecognised (fieldKk w))

theorem isNoOp_eq_unrecognisedWord (hi : i.wf = true) : i.isNoOp = unrecognisedWord (encode i) := by
  cases i
  case cls | ret => rfl
  case sys | nop8 | nopE | nopF => simpa [Instr.isNoOp, unrecognisedWord, encode, Instr.wf] using hi
  case ldVxVy | orVxVy | andVxVy | xorVxVy | addVxVy | subVxVy | shrVx | subnVxVy | shlVx =>
    simp [Instr.isNoOp, unrecognisedWord, encode, group8Recognised]
  case skp | sknp => simp [Instr.isNoOp, unrecognisedWord, encode, groupERecognised]
  case ldVxDt | ldVxK | ldDtVx | ldStVx | addIVx | ldFVx | ldBVx | ldMemVx | ldVxMem =>
    simp [Instr.isNoOp, unrecognisedWord, encode, groupFRecognised]
  all_goals simp [Instr.isNoOp, unrecognisedWord, encode]

/-- The numbers of the no-op words, group by group (30_encoding.md R72, R73). -/
def IsNoOpNumber (v : Nat) : Prop :=
  (v / 4096 = 0x0 ∧ v ≠ 0x00E0 ∧ v ≠ 0x00EE) ∨
  (v / 4096 = 0x8 ∧ v % 16 ∈ [0x8, 0x9, 0xA, 0xB, 0xC, 0xD, 0xF]) ∨
  (v / 4096 = 0xE ∧ v % 256 ∉ [0x9E, 0xA1]) ∨
  (v / 4096 = 0xF ∧ v % 256 ∉ [0x07, 0x0A, 0x15, 0x18, 0x1E, 0x29, 0x33, 0x55, 0x65])

theorem toNat_groupOf (w : Word) : (groupOf w).toNat = w.toNat / 4096 := by
  have := w.isLt
  rw [groupOf, BitVec.extractLsb'_toNat, Nat.shiftRight_eq_div_pow]
  omega

theorem toNat_fieldNnn (w : Word) : (fieldNnn w).toNat = w.toNat % 4096 := by
  simp [fieldNnn, BitVec.extractLsb'_toNat]

theorem toNat_fieldN (w : Word) : (fieldN w).toNat = w.toNat % 16 := by
  simp [fieldN, BitVec.extractLsb'_toNat]

theorem toNat_fieldKk (w : Word) : (fieldKk w).toNat = w.toNat % 256 := by
  simp [fieldKk, BitVec.extractLsb'_toNat]

theorem unrecognisedWord_iff (w : Word) : unrecognisedWord w = true ↔ IsNoOpNumber w.toNat := by
  simp only [unrecognisedWord, Bool.or_eq_true, Bool.and_eq_true, beq_iff_eq, BitVec.toNat_eq, Bool.not_eq_true',
    group0Recognised_eq_false, group8Recognised_eq_false, groupERecognised_eq_false, groupFRecognised_eq_false,
    toNat_groupOf, toNat_fieldNnn, toNat_fieldN, toNat_fieldKk, or_assoc, IsNoOpNumber]
  refine or_congr ?_ (or_congr ?_ .rfl)
  · simp
    omega
  · simp
    omega

theorem isNoOp_decodeWord_iff (w : Word) : (decodeWord w).isNoOp = true ↔ IsNoOpNumber w.toNat := by
  obtain ⟨hwf, hencode⟩ := everyWordDecodesAndReencodes w
  rw [isNoOp_eq_unrecognisedWord hwf, hencode, unrecognisedWord_iff]

/-! ## How many words are no-ops -/

/-- The number of no-ops among the 256 words of group `g` with the field `x`. -/
def noOpsInRow (g x : Nat) : Nat :=
  ((List.range 256).filter fun k => (decodeWord (BitVec.ofNat 16 (g * 4096 + x * 256 + k))).isNoOp).length

theorem noOpsInRow_eq {g x : Nat} {p : Nat → Bool} (hg : g < 16) (hx : x < 16)
    (h : ∀ v, v / 4096 = g → v % 4096 / 256 = x → (IsNoOpNumber v ↔ p (v % 256) = true)) :
    noOpsInRow g x = ((List.range 256).filter p).length := by
  unfold noOpsInRow
  congr 1
  refine List.filter_congr fun k hk => ?_
  have hk : k < 256 := List.mem_range.mp hk
  have hlow : (g * 4096 + x * 256 + k) % 256 = k := by omega
  rw [Bool.eq_iff_iff, isNoOp_decodeWord_iff, BitVec.toNat_ofNat, Nat.mod_eq_of_lt (by omega),
    h _ (by omega) (by omega), hlow]

theorem length_filter_notMem_range {n : Nat} {l : List Nat} (hl : l.Nodup) (hlt : ∀ a ∈ l, a < n) :
    ((List.range n).filter (· ∉ l)).length = n - l.length := by
  have hperm : ((List.range n).filter (· ∈ l)).Perm l :=
    (List.perm_ext_iff_of_nodup (List.nodup_range.filter _) hl).mpr fun a => by simpa using hlt a
  have hsplit := List.length_eq_length_filter_add (l := List.range n) (· ∈ l)
  simp only [hperm.length_eq, List.length_range, ← decide_not] at hsplit
  omega

theorem noOpsInRow_group0 {x : Nat} (hx : x < 16) : noOpsInRow 0x0 x = if x = 0 then 254 else 256 := by
  split
  · rw [noOpsInRow_eq (p := (· ∉ [0xE0, 0xEE])) (by decide) hx fun v hg hv => ?_]
    · exact length_filter_notMem_range (by decide) (by decide)
    · have hv : v % 256 = v := by omega
      simp [IsNoOpNumber, hg, hv]
  · rw [noOpsInRow_eq (p := fun _ => true) (by decide) hx fun v hg hv => ?_]
    · simp
    · have hv : v ≠ 0xE0 ∧ v ≠ 0xEE := by omega
      simp [IsNoOpNumber, hg, hv]

theorem noOpsInRow_group8 {x : Nat} (hx : x < 16) : noOpsInRow 0x8 x = 112 := by
  rw [noOpsInRow_eq (p := (· % 16 ∈ [0x8, 0x9, 0xA, 0xB, 0xC, 0xD, 0xF])) (by decide) hx fun v hg _ => ?_]
  · decide
  · simp [IsNoOpNumber, hg]

theorem noOpsInRow_groupE {x : Nat} (hx : x < 16) : noOpsInRow 0xE x = 254 := by
  rw [noOpsInRow_eq (p := (· ∉ [0x9E, 0xA1])) (by decide) hx fun v hg _ => ?_]
  · exact length_filter_notMem_range (by decide) (by decide)
  · simp [IsNoOpNumber, hg]

theorem noOpsInRow_groupF {x : Nat} (hx : x < 16) : noOpsInRow 0xF x = 247 := by
  rw [noOpsInRow_eq (p := (· ∉ [0x07, 0x0A, 0x15, 0x18, 0x1E, 0x29, 0x33, 0x55, 0x65])) (by decide) hx fun v hg _ => ?_]
  · exact length_filter_notMem_range (by decide) (by decide)
  · simp [IsNoOpNumber, hg]

/-- Settles O4: the class by `isNoOp_decodeWord_iff`, the numbers as sums over the 16 rows of 256 words of a group. -/
theorem noOpWordsAndTheirNumber : Obligations.NoOpWordsAndTheirNumber := by
  refine ⟨isNoOp_decodeWord_iff, fun g n hgn => ?_⟩
  change ((List.range 16).map (noOpsInRow g)).sum = n
  simp only [List.mem_cons, Prod.mk.injEq, List.not_mem_nil, or_false] at hgn
  rcases hgn with ⟨rfl, rfl⟩ | ⟨rfl, rfl⟩ | ⟨rfl, rfl⟩ | ⟨rfl, rfl⟩
  · rw [List.map_congr_left fun x hx => noOpsInRow_group0 (List.mem_range.mp hx)]; rfl
  · rw [List.map_congr_left fun x hx => noOpsInRow_group8 (List.mem_range.mp hx)]; rfl
  · rw [List.map_congr_left fun x hx => noOpsInRow_groupE (List.mem_range.mp hx)]; rfl
  · rw [List.map_congr_left fun x hx => noOpsInRow_groupF (List.mem_range.mp hx)]; rfl

end Sys2Proof

namespace Sys2Proof.Machine

variable {i : Instr} {s : State} {w : Word}

/-! ## Every word has a meaning -/

/-- Settles O7: a halted state, a fetch fault, and a handler, which always answers a next state (`exec_next`). -/
theorem everyStepAnswersANextState : Obligations.EveryStepAnswersANextState := by
  intro s
  by_cases hs : s.fault = .noFault
  · cases hw : s.fetchWord with
    | none => exact ⟨_, step_of_fetch_none hs hw⟩
    | some w =>
      obtain ⟨u, hu⟩ := exec_next (decodeWord w) s.advance
      exact ⟨u.finish, by rw [step_of_fetch_some hs hw, hu, finishOutcome]⟩
  · exact ⟨s, step_of_halted hs⟩

theorem exec_of_isNoOp (h : i.isNoOp = true) (s : State) : exec i s = .next s := by
  cases i
  case sys | nop8 | nopE | nopF => rfl
  all_goals cases h

/-- A no-op is a full cycle with an empty handler (30_encoding.md R72). -/
theorem step_of_isNoOp (hs : s.fault = .noFault) (hw : s.fetchWord = some w) (h : (decodeWord w).isNoOp = true) :
    step s = .next s.advance.tail := by
  have hs' : s.advance.fault = .noFault := hs
  rw [step_of_fetch_some hs hw, exec_of_isNoOp h, finishOutcome, State.finish_running hs']

/-- Settles O26: `SYS` is well formed for those operands, the four handlers are empty, and the cycle is the advance and the
tail. -/
theorem noOpsChangeNothing : Obligations.NoOpsChangeNothing := by
  refine ⟨fun nnn h0 h1 => ?_, fun _ _ _ _ _ _ => ⟨rfl, rfl, rfl, rfl⟩, fun s w hs hw h => ?_⟩
  · have hwf : (Instr.sys nnn).wf = true := by simp [Instr.wf, group0Recognised, h0, h1]
    change decodeWord (encode (.sys nnn)) = .sys nnn
    exact decodeWord_encode hwf
  · exact ⟨_, step_of_isNoOp hs hw h, rfl, toNat_tick _, toNat_tick _, rfl, by simp [Frame]⟩

end Sys2Proof.Machine
end

section
/-! PROOFS. The statements about the cycle and the host's transactions (40_cycle_driver.md): a cycle runs the decoded
instruction and then the tail, the result of a step, the transactions `LoadProgram` and `Framebuffer`, and the invariant
through a whole session. -/

namespace Sys2Proof.Machine

variable {i : Instr} {s t : State} {w : Word}

/-! ## The instruction and the tail of a cycle -/

/-- Two bytes in memory at `pc` that decode to an instruction are a fetched word that decodes to it. -/
theorem fetchWord_of_decodeBytes (hpc : s.pc.toNat ≤ 4094)
    (h : decodeBytes [s.mem.read s.pc.toNat, s.mem.read (s.pc.toNat + 1)] = .ok (i, [])) :
    ∃ w, s.fetchWord = some w ∧ decodeWord w = i := by
  cases h
  exact ⟨_, State.fetchWord_eq_some.mpr ⟨hpc, rfl⟩, rfl⟩

/-- `toNat_tick` as an equation of bytes. -/
theorem tick_eq_ofNat (b : Byte) : tick b = BitVec.ofNat 8 (b.toNat - 1) := by
  rw [← toNat_tick, BitVec.ofNat_toNat, BitVec.setWidth_eq]

/-- Settles O6: the two bytes are the word fetched (`fetchWord_of_decodeBytes`), every handler answers a next state
(`exec_next`), and `finish` is the tail when that state is not faulted. -/
theorem stepRunsTheDecodedInstruction : Obligations.StepRunsTheDecodedInstruction := by
  intro s i hs hpc hdec
  obtain ⟨w, hw, rfl⟩ := fetchWord_of_decodeBytes hpc hdec
  obtain ⟨t, ht⟩ := exec_next (decodeWord w) s.advance
  refine ⟨t, ht, ?_⟩
  rw [step_of_fetch_some hs hw, ht, finishOutcome]
  simp only [State.finish, State.tail, tick_eq_ofNat]

/-- A cycle that faults changes the latch only (60_exceptions.md R172). -/
theorem step_faulted (hs : s.fault = .noFault) (h : step s = .next t) (ht : t.fault ≠ .noFault) :
    ∃ c, t = s.enterFault c := by
  rcases step_running_cases hs h with ⟨-, ht'⟩ | ⟨_, c, -, -, ht'⟩ | ⟨_, u, -, -, -, -, hu, rfl⟩
  · exact ⟨_, ht'⟩
  · exact ⟨c, ht'⟩
  · exact absurd hu ht

/-- A cycle that does not fault is its handler, which keeps to its write set, and then the tail. -/
theorem step_completed (hs : s.fault = .noFault) (hw : s.fetchWord = some w) (h : step s = .next t)
    (ht : t.fault = .noFault) :
    ∃ u, exec (decodeWord w) s.advance = .next u ∧
      Frame (regWriteSet (decodeWord w)) (writeSet (decodeWord w)) s.advance u ∧ t = u.tail := by
  rcases step_fetched_cases hs hw h with ⟨c, hc, rfl⟩ | ⟨u, hx, hfr, -, ht'⟩
  · exact absurd ht hc.ne_noFault
  · exact ⟨u, hx, hfr, ht'⟩

theorem Frame.st_eq {regs : List Reg} {fields : List Field} (h : Frame regs fields s t) (hf : Field.st ∉ fields) :
    t.st = s.st := by
  obtain ⟨-, -, -, -, -, -, -, hst, -⟩ := h
  exact hst hf

theorem st_mem_writeSet (h : Field.st ∈ writeSet i) : ∃ x, i = .ldStVx x := by
  cases i <;> simp [writeSet] at h ⊢

/-- Settles O9: a cycle that faults changes the latch only (`step_faulted`); in one that completes the tail takes
`input_mask`, which no handler writes, and each timer either as it was or as its one writer left it. -/
theorem cycleTailRunsInEveryCycle : Obligations.CycleTailRunsInEveryCycle := by
  refine ⟨fun s t hs h ht => ?_, fun s t w hs hw h ht => ?_⟩
  · obtain ⟨c, rfl⟩ := step_faulted hs h ht
    exact ⟨rfl, rfl, rfl⟩
  · obtain ⟨u, hx, hfr, rfl⟩ := step_completed hs hw h ht
    refine ⟨?_, fun hi => ?_, fun hi => ?_, fun x hi => ?_, fun x hi => ?_⟩
    · rw [State.tail_prevMask, hfr.inputMask_eq (inputMask_notMem_writeSet _), State.advance_inputMask]
    · exact step_dt hs h ht fun w' hw' => by
        cases hw.symm.trans hw'
        exact hi
    · have hst : Field.st ∉ writeSet (decodeWord w) := fun hmem =>
        let ⟨x, hwrites⟩ := st_mem_writeSet hmem
        hi x hwrites
      rw [State.tail_st, toNat_tick, hfr.st_eq hst, State.advance_st]
    · rw [hi] at hx
      have hu : s.advance.setDt (s.advance.reg x) = u := Host.Outcome.next.inj hx
      rw [← hu, State.tail_dt, toNat_tick, State.setDt_dt, State.advance_reg]
    · rw [hi] at hx
      have hu : s.advance.setSt (s.advance.reg x) = u := Host.Outcome.next.inj hx
      rw [← hu, State.tail_st, toNat_tick, State.setSt_st, State.advance_reg]

/-! ## The result of a step -/

/-- `Step` answers the next state of `step` with the result and the report of the two states. -/
theorem hostStep_of_step (h : step s = .next t) :
    hostStep s = .next (t, .ran (stepRunning s t) (stepReport s t)) := by
  simp only [hostStep, h]

theorem stepRunning_of_halted (hs : s.fault ≠ .noFault) : stepRunning s t = false := by
  simp [stepRunning, hs]

theorem stepRunning_of_faulted (ht : t.fault ≠ .noFault) : stepRunning s t = false := by
  simp [stepRunning, ht]

theorem stepRunning_of_running (hs : s.fault = .noFault) (ht : t.fault = .noFault) :
    stepRunning s t = t.nextWordNonZero := by
  simp [stepRunning, hs, ht]

theorem stepReport_of_halted (hs : s.fault ≠ .noFault) : stepReport s t = none := if_neg fun h => hs h.1

theorem stepReport_of_running (ht : t.fault = .noFault) : stepReport s t = none := if_neg fun h => h.2 ht

/-- Settles O8: a halted step is no cycle, and it has neither a result nor a report. -/
theorem haltedStepChangesNothing : Obligations.HaltedStepChangesNothing := by
  intro s hs
  have hstep := step_of_halted hs
  exact ⟨hstep, by rw [hostStep_of_step hstep, stepRunning_of_halted hs, stepReport_of_halted hs]⟩

theorem wordOfBytes_eq_zero {hi lo : Byte} : wordOfBytes hi lo = 0x0000#16 ↔ hi = 0#8 ∧ lo = 0#8 := by
  simp only [← BitVec.toNat_inj, toNat_wordOfBytes, BitVec.toNat_ofNat]
  omega

/-- All that the peek can answer (40_cycle_driver.md R87). -/
theorem State.nextWordNonZero_iff : t.nextWordNonZero = true ↔
    t.pc.toNat ≤ 4094 ∧ ¬(t.mem.read t.pc.toNat = 0#8 ∧ t.mem.read (t.pc.toNat + 1) = 0#8) := by
  rw [← wordOfBytes_eq_zero]
  cases hw : t.fetchWord with
  | none =>
    have hpc := State.fetchWord_eq_none.mp hw
    simp only [State.nextWordNonZero, hw, Bool.false_eq_true, false_iff]
    exact fun h => absurd h.1 (by omega)
  | some w =>
    obtain ⟨hpc, rfl⟩ := State.fetchWord_eq_some.mp hw
    simp only [State.nextWordNonZero, hw, bne_iff_ne, hpc, true_and, ne_eq]

/-- Settles O54: between two states that are not faulted the result is the peek (`State.nextWordNonZero_iff`); with the
latch set at the end, by this step or before it, it is false. -/
theorem stepResultPeeksAtTheNextWord : Obligations.StepResultPeeksAtTheNextWord := by
  intro s t h
  refine ⟨fun hs ht => ⟨t.nextWordNonZero, ?_, State.nextWordNonZero_iff⟩, fun ht => ⟨stepReport s t, ?_⟩⟩
  · rw [hostStep_of_step h, stepRunning_of_running hs ht, stepReport_of_running ht]
  · rw [hostStep_of_step h, stepRunning_of_faulted ht]

/-! ## LoadProgram and Framebuffer -/

theorem hostLoadProgram_of_le {bytes : List Byte} (h : bytes.length ≤ 3584) :
    hostLoadProgram bytes s = (s.setMem (s.mem.writeList 0x200 bytes), .done) := if_pos h

theorem hostLoadProgram_of_lt {bytes : List Byte} (h : 3584 < bytes.length) :
    hostLoadProgram bytes s = (s, .loadTooLarge) := if_neg (by simpa [Config.maxProg] using h)

/-- Settles O57: an image that fits is one write of a range below address 4096. -/
theorem loadProgramCopiesTheImage : Obligations.LoadProgramCopiesTheImage := by
  intro p bytes s hwf
  refine ⟨fun hle => ?_, fun hlt => by rw [perform, hostLoadProgram_of_lt hlt]⟩
  have hrange : 0x200 + bytes.length ≤ 4096 := by omega
  exact ⟨_, by rw [perform, hostLoadProgram_of_le hle], fun k hk => Memory.read_writeList_inside hwf hrange hk,
    fun a ha => Memory.read_writeList_outside ha, by simp [Frame]⟩

theorem getElem?_framebuffer {k : Nat} (hk : k < 8192) : (framebuffer s)[k]? = some (framebufferByte s k) := by
  simp [framebuffer, hk]

/-- The four bytes of pixel `p` of the view (10_state.md R19). -/
theorem framebufferByte_channel {p c : Nat} (hc : c < 4) :
    framebufferByte s (4 * p + c) = if s.disp.pixel p then 0xFF#8 else 0x00#8 := by
  rw [framebufferByte, show (4 * p + c) / 4 = p by omega]

/-- Settles O59: every byte number of a pixel below 2048 is below 8192. -/
theorem framebufferShowsFourBytesPerPixel : Obligations.FramebufferShowsFourBytesPerPixel := by
  intro p s
  refine ⟨framebuffer s, rfl, by simp [framebuffer], fun row col c hrow hcol hc => ?_⟩
  rw [getElem?_framebuffer (by omega), framebufferByte_channel hc]

/-! ## The invariant through a session -/

/-- `Step` ends in the state of the step. -/
theorem step_of_hostStep {reply : Reply} (h : hostStep s = .next (t, reply)) : step s = .next t := by
  obtain ⟨u, hu⟩ := everyStepAnswersANextState s
  rw [hostStep_of_step hu] at h
  cases h
  exact hu

/-- A run of one step more is that step and the run from the state after it. -/
theorem frameRun_succ_cases {n : Nat} {result : Bool × Option FaultReport}
    (h : frameRun (n + 1) s = .next (t, result)) :
    ∃ u result', step s = .next u ∧ frameRun n u = .next (t, result') := by
  obtain ⟨u, hu⟩ := everyStepAnswersANextState s
  simp only [frameRun, hu] at h
  cases hrest : frameRun n u with
  | next r =>
    obtain ⟨t', result'⟩ := r
    rw [hrest] at h
    cases h
    exact ⟨u, result', hu, hrest⟩
  | fault r => exact nomatch r
  | refused r => rw [hrest] at h; cases h

theorem frameRun_inv {n : Nat} {result : Bool × Option FaultReport} (hinv : s.Inv)
    (h : frameRun n s = .next (t, result)) : t.Inv := by
  induction n generalizing s result with
  | zero => cases h; exact hinv
  | succ n ih =>
    obtain ⟨u, result', hu, hrest⟩ := frameRun_succ_cases h
    exact ih (stepKeepsTheInvariant s u hinv hu) hrest

/-- `Frame` ends in the state of its run of steps. -/
theorem frameRun_of_hostFrame {n : Nat} {reply : Reply} (h : hostFrame n s = .next (t, reply)) :
    ∃ result, frameRun n s = .next (t, result) := by
  unfold hostFrame at h
  split at h
  · next u running report hrun => cases h; exact ⟨_, hrun⟩
  · cases h
  · cases h

/-- `Reset` differs from the reset state in the count of draws only, which the invariant does not speak of. -/
theorem hostReset_inv (font : Vector Byte 80) (s : State) : (hostReset font s).Inv :=
  have h := State.resetWith_inv font
  ⟨h.memWf, h.pcBound, h.stackBound⟩

theorem hostLoadProgram_inv (hinv : s.Inv) (bytes : List Byte) : (hostLoadProgram bytes s).1.Inv := by
  by_cases hle : bytes.length ≤ 3584
  · rw [hostLoadProgram_of_le hle]
    exact ⟨Memory.writeList_wf hinv.memWf (.inr (by omega)), hinv.pcBound, hinv.stackBound⟩
  · rw [hostLoadProgram_of_lt (by omega)]
    exact hinv

theorem hostSetKey_inv (hinv : s.Inv) (index : Nat) (held : Bool) : (hostSetKey index held s).1.Inv := by
  unfold hostSetKey
  split
  · exact ⟨hinv.memWf, hinv.pcBound, hinv.stackBound⟩
  · exact hinv

/-- One transaction of any kind keeps the invariant. -/
theorem perform_inv {p : Params} {x : Transaction} {reply : Reply} (hinv : s.Inv)
    (h : perform p x s = .next (t, reply)) : t.Inv := by
  cases x with
  | reset => cases h; exact hostReset_inv p.font s
  | loadProgram bytes =>
    have hload : hostLoadProgram bytes s = (t, reply) := Host.Outcome.next.inj h
    simpa only [hload] using hostLoadProgram_inv hinv bytes
  | setKey index held =>
    have hset : hostSetKey index held s = (t, reply) := Host.Outcome.next.inj h
    simpa only [hset] using hostSetKey_inv hinv index held
  | step => exact stepKeepsTheInvariant s t hinv (step_of_hostStep h)
  | frame =>
    obtain ⟨result, hrun⟩ := frameRun_of_hostFrame h
    exact frameRun_inv hinv hrun
  | framebuffer => cases h; exact hinv

/-- A session of one transaction more is that transaction and the session from the state after it. -/
theorem session_cons_cases {p : Params} {x : Transaction} {xs : List Transaction} {replies : List Reply}
    (h : session p (x :: xs) s = .next (t, replies)) :
    ∃ u reply replies', perform p x s = .next (u, reply) ∧ session p xs u = .next (t, replies') := by
  unfold session at h
  split at h
  · next u reply hx =>
    split at h
    · next t' replies' hrest => cases h; exact ⟨u, reply, replies', hx, hrest⟩
    · cases h
    · cases h
  · cases h
  · cases h

/-- Settles O18, by induction on the list of transactions, with `perform_inv` for the first one. -/
theorem sessionKeepsTheInvariant : Obligations.SessionKeepsTheInvariant := by
  intro p xs
  induction xs with
  | nil => intro s t replies hinv h; cases h; exact hinv
  | cons x xs ih =>
    intro s t replies hinv h
    obtain ⟨u, reply, replies', hx, hrest⟩ := session_cons_cases h
    exact ih u t replies' (perform_inv hinv hx) hrest

end Sys2Proof.Machine
end

section
/-! PROOFS. The statements about the control flow (41_flow.md): the clear-screen, the two jumps, the call, the return, and a
call followed by a return. -/

namespace Sys2Proof.Machine

variable {s : State} {nnn : Addr12}

/-! ## The call and the return, outcome by outcome -/

/-- A call with a free entry saves `pc` and jumps (41_flow.md R103). -/
theorem exec_call_of_lt (h : s.sp.val < 16) :
    exec (.call nnn) s =
      .next { s with stack := s.stack.set s.sp.val s.pc, sp := ⟨s.sp.val + 1, by omega⟩, pc := zextAddr nnn } := by
  obtain ⟨t, ht⟩ := exec_next (.call nnn) s
  rcases exec_call_cases ht with ⟨hfull, -⟩ | ⟨_, heq⟩
  · omega
  · rw [ht, heq]

theorem exec_call_of_full (h : s.sp.val = 16) : exec (.call nnn) s = s.raise .stackOverflow := by
  simp only [exec, execCall, State.push_of_full h]

/-- A return with a live entry pops it into `pc` (41_flow.md R101). -/
theorem exec_ret_of_pos (h : 0 < s.sp.val) :
    exec .ret s = .next { s with sp := ⟨s.sp.val - 1, by omega⟩, pc := s.stack[s.sp.val - 1] } := by
  obtain ⟨t, ht⟩ := exec_next .ret s
  rcases exec_ret_cases ht with ⟨hempty, -⟩ | ⟨_, heq⟩
  · omega
  · rw [ht, heq]

theorem exec_ret_of_empty (h : s.sp.val = 0) : exec .ret s = s.raise .stackUnderflow := by
  simp only [exec, execRet, State.pop_of_empty h]

/-- A return pops the word that a push left as the last live entry. -/
theorem exec_ret_of_pushed {k : Fin 17} {stack : Vector Word 16} {ret : Word} (hk : k.val < 16)
    (hstack : s.stack = stack.set k.val ret) (hsp : s.sp.val = k.val + 1) :
    exec .ret s = .next { s with sp := k, pc := ret } := by
  have hentry : s.sp.val - 1 = k.val := by omega
  rw [exec_ret_of_pos (by omega)]
  simp only [hentry, hstack, Vector.getElem_set_self]

/-- Settles O25: the call pushes `pc`, and the return pops it (`exec_ret_of_pushed`). -/
theorem callThenReturnRestores : Obligations.CallThenReturnRestores := by
  intro nnn s hlt
  refine ⟨_, exec_call_of_lt hlt, fun t' hstack hsp => ?_⟩
  exact ⟨_, exec_ret_of_pushed hlt hstack (congrArg Fin.val hsp), rfl, rfl, by simp [Frame, State.reg]⟩

/-- Settles O23: a free entry (`exec_call_of_lt`) and none (`exec_call_of_full`). -/
theorem callSavesTheReturnAddress : Obligations.CallSavesTheReturnAddress := by
  refine fun nnn s => ⟨decodeWord_encode (i := .call nnn) rfl, fun hlt => ?_, fun hfull => exec_call_of_full hfull⟩
  refine ⟨_, exec_call_of_lt hlt, ?_, rfl, toNat_zextAddr nnn, fun k hk hne => ?_, by simp [Frame, State.reg]⟩
  · exact Vector.getElem_set_self hlt
  · exact Vector.getElem_set_ne hlt hk hne.symm

/-- Settles O24: a live entry (`exec_ret_of_pos`) and none (`exec_ret_of_empty`). -/
theorem returnPopsTheLastEntry : Obligations.ReturnPopsTheLastEntry := by
  refine ⟨decodeWord_encode (i := .ret) rfl, fun s => ⟨fun hpos => ?_, fun hempty => exec_ret_of_empty hempty⟩⟩
  exact ⟨_, exec_ret_of_pos hpos, rfl, rfl, by simp [Frame, State.reg]⟩

/-! ## The clear-screen and the jumps -/

/-- A dark display is a framebuffer view of zeros (10_state.md R19). -/
theorem framebufferByte_of_dark (h : s.disp = Display.dark) (k : Nat) : framebufferByte s k = 0#8 := by
  simp [framebufferByte, h]

/-- Settles O21: the display is `Display.dark`, and so is the view of it. -/
theorem clearScreenDarkensEveryPixel : Obligations.ClearScreenDarkensEveryPixel := by
  refine ⟨decodeWord_encode (i := .cls) rfl, fun s => ⟨s.setDisp Display.dark, rfl, Display.pixel_dark, fun k hk => ?_, ?_⟩⟩
  · rw [getElem?_framebuffer hk, framebufferByte_of_dark rfl]
  · simp [Frame]

/-- Settles O22: neither target wraps in 16 bits (`toNat_zextAddr`, `toNat_zextAddr_add_zextByte`). -/
theorem jumpTargets : Obligations.JumpTargets := by
  refine fun nnn s => ⟨⟨decodeWord_encode (i := .jp nnn) rfl, _, rfl, ?_⟩, decodeWord_encode (i := .jpV0 nnn) rfl, _, rfl, ?_⟩
  · exact ⟨toNat_zextAddr nnn, by simp [Frame]⟩
  · exact ⟨toNat_zextAddr_add_zextByte nnn (s.reg V0), by simp [Frame]⟩

end Sys2Proof.Machine
end

section
/-! PROOFS. The statements about the skips (42_skips.md): the four compare skips, and the whole cycle of any of the six. -/

namespace Sys2Proof.Machine

variable {s : State} {w : Word} {c : Bool}

/-! ## The common skip -/

@[simp] theorem State.skipIf_pc (s : State) (c : Bool) : (s.skipIf c).pc = if c then s.pc + 2#16 else s.pc := by
  rw [State.skipIf_eq, State.setPc_pc]

@[simp] theorem State.skipIf_fault (s : State) (c : Bool) : (s.skipIf c).fault = s.fault := by
  rw [State.skipIf_eq, State.setPc_fault]

theorem State.skipIf_frame (s : State) (c : Bool) : Frame [] [.pc] s (s.skipIf c) := by
  simp [Frame, State.skipIf_eq]

/-- Settles O27: each handler is `skipIf` of its comparison with the literal. -/
theorem literalSkips : Obligations.LiteralSkips := by
  refine fun x kk s => ⟨⟨decodeWord_encode (i := .seVxKk x kk) rfl, s.skipIf (s.reg x == kk), rfl, ?_⟩,
    decodeWord_encode (i := .sneVxKk x kk) rfl, s.skipIf (s.reg x != kk), rfl, ?_⟩
  · exact ⟨fun heq => by simp [heq], fun hne => by simp [hne], s.skipIf_frame _⟩
  · exact ⟨fun hne => by simp [hne], fun heq => by simp [heq], s.skipIf_frame _⟩

/-- Settles O28: each handler is `skipIf` of its comparison of the two registers, and the low nibble is no part of it. -/
theorem registerSkips : Obligations.RegisterSkips := by
  refine fun x y n s => ⟨⟨decodeWord_encode (i := .seVxVy x y n) rfl, s.skipIf (s.reg x == s.reg y), rfl, ?_⟩,
    decodeWord_encode (i := .sneVxVy x y n) rfl, s.skipIf (s.reg x != s.reg y), rfl, ?_⟩
  · exact ⟨fun heq => by simp [heq], fun hne => by simp [hne], s.skipIf_frame _⟩
  · exact ⟨fun hne => by simp [hne], fun heq => by simp [heq], s.skipIf_frame _⟩

/-! ## The cycle of a skip -/

/-- The key test as the spec words it (46_keys_timers.md R166). -/
theorem keyHeld_iff {mask : Word} {key : Byte} :
    keyHeld mask key = true ↔ key.toNat ≤ 15 ∧ mask.getLsbD key.toNat = true := by
  rw [keyHeld, Bool.and_eq_true, decide_eq_true_eq]

/-- The cycle of a skip is the advance, the skip and the tail (42_skips.md R114). -/
theorem step_of_exec_skipIf (hs : s.fault = .noFault) (hw : s.fetchWord = some w)
    (h : exec (decodeWord w) s.advance = .next (s.advance.skipIf c)) : step s = .next (s.advance.skipIf c).tail := by
  have hs' : (s.advance.skipIf c).fault = .noFault := by rw [State.skipIf_fault, State.advance_fault, hs]
  rw [step_of_fetch_some hs hw, h, finishOutcome, State.finish_running hs']

/-- No skip from a fetched address wraps `pc`. -/
theorem State.toNat_pc_advance_skipIf (c : Bool) (hpc : s.pc.toNat ≤ 4094) :
    (s.advance.skipIf c).pc.toNat = s.pc.toNat + if c then 4 else 2 := by
  cases c with
  | false =>
    change (s.pc + 2#16).toNat = s.pc.toNat + 2
    bv_omega
  | true =>
    change (s.pc + 2#16 + 2#16).toNat = s.pc.toNat + 4
    bv_omega

theorem State.advance_skipIf_tail_frame (s : State) (c : Bool) :
    Frame [] [.pc, .dt, .st, .prevMask] s (s.advance.skipIf c).tail := by
  simp [Frame, State.skipIf_eq]

/-- Settles O30: each of the six handlers is `skipIf` of its condition, so one argument about the cycle serves them all. -/
theorem skipAdvancesByFourOrTwo : Obligations.SkipAdvancesByFourOrTwo := by
  intro s w hs hw taken hskip
  obtain ⟨c, hc, hx⟩ :
      ∃ c : Bool, (taken ↔ c = true) ∧ exec (decodeWord w) s.advance = .next (s.advance.skipIf c) := by
    rcases hskip with ⟨x, kk, hi, ht⟩ | ⟨x, kk, hi, ht⟩ | ⟨x, y, n, hi, ht⟩ | ⟨x, y, n, hi, ht⟩ | ⟨x, hi, ht⟩ | ⟨x, hi, ht⟩
    · exact ⟨s.reg x == kk, ht.trans beq_iff_eq.symm, by rw [hi]; rfl⟩
    · exact ⟨s.reg x != kk, ht.trans bne_iff_ne.symm, by rw [hi]; rfl⟩
    · exact ⟨s.reg x == s.reg y, ht.trans beq_iff_eq.symm, by rw [hi]; rfl⟩
    · exact ⟨s.reg x != s.reg y, ht.trans bne_iff_ne.symm, by rw [hi]; rfl⟩
    · exact ⟨keyHeld s.inputMask (s.reg x), ht.trans keyHeld_iff.symm, by rw [hi]; rfl⟩
    · exact ⟨!keyHeld s.inputMask (s.reg x), by rw [ht, ← keyHeld_iff, Bool.not_eq_true', Bool.not_eq_true],
        by rw [hi]; rfl⟩
  have hpc := State.toNat_pc_advance_skipIf c (State.fetchWord_eq_some.mp hw).1
  have hfault : (s.advance.skipIf c).tail.fault = .noFault := by
    rw [State.tail_fault, State.skipIf_fault, State.advance_fault, hs]
  refine ⟨_, step_of_exec_skipIf hs hw hx, hfault, fun ht => ?_, fun ht => ?_, s.advance_skipIf_tail_frame c, fun hlast => ?_⟩
  · rw [State.tail_pc, hpc, if_pos (hc.mp ht)]
  · rw [State.tail_pc, hpc, if_neg (mt hc.mpr ht)]
  · exact step_of_fetch_none hfault (State.fetchWord_eq_none.mpr hlast)

end Sys2Proof.Machine
end

section
/-! PROOFS. The statements about the loads and the ALU (43_load_alu.md): what each operation leaves in `Vx`, what the five
flag writers leave in `VF`, and that nothing else changes. -/

namespace Sys2Proof.Machine

variable {s : State} {x : Reg} {b : Byte} {f : Bool}

/-! ## The write of a result, without and with a flag -/

theorem State.setReg_frame (s : State) (x : Reg) (b : Byte) : Frame [x] [] s (s.setReg x b) :=
  ⟨fun _ hr => State.reg_setReg_of_ne (List.ne_of_not_mem_cons hr), by simp⟩

theorem State.setRegFlag_frame (s : State) (x : Reg) (b : Byte) (f : Bool) : Frame [x, VF] [] s (s.setRegFlag x b f) := by
  rw [State.setRegFlag_eq]
  refine ⟨fun r hr => ?_, by simp⟩
  obtain ⟨hx, hVF⟩ : r ≠ x ∧ r ≠ VF := by simpa using hr
  rw [State.reg_setReg_of_ne hVF, State.reg_setReg_of_ne hx]

/-- The flag is written last, so `VF` holds it even where `VF` is the destination (43_load_alu.md R132). -/
theorem State.reg_VF_setRegFlag : (s.setRegFlag x b f).reg VF = flagByte f := State.reg_setReg_self _ _ _

theorem State.reg_setRegFlag_of_ne (h : x ≠ VF) : (s.setRegFlag x b f).reg x = b := by
  rw [State.setRegFlag_eq, State.reg_setReg_of_ne h, State.reg_setReg_self]

/-! ## The flags as numbers -/

theorem toNat_flagByte (f : Bool) : (flagByte f).toNat = f.toNat := by
  cases f <;> rfl

/-- The carry is bit 8 of the sum of two bytes. -/
theorem toNat_flagByte_carryFlag (a b : Byte) : (flagByte (carryFlag a b)).toNat = (a.toNat + b.toNat) / 256 := by
  have ha := a.isLt
  have hb := b.isLt
  rw [toNat_flagByte, carryFlag]
  by_cases h : a.toNat + b.toNat > 255
  · rw [decide_eq_true h, Bool.toNat_true]
    omega
  · rw [decide_eq_false h, Bool.toNat_false]
    omega

theorem borrowFlag_of_lt {a b : Byte} (h : a.toNat < b.toNat) : borrowFlag a b = true := decide_eq_true h

theorem borrowFlag_of_le {a b : Byte} (h : b.toNat ≤ a.toNat) : borrowFlag a b = false :=
  decide_eq_false (Nat.not_lt.mpr h)

theorem toNat_flagByte_shiftRightFlag (a : Byte) : (flagByte (shiftRightFlag a)).toNat = a.toNat % 2 := by
  rw [toNat_flagByte, shiftRightFlag, BitVec.getLsbD, Nat.toNat_testBit, pow_zero, Nat.div_one]

theorem toNat_flagByte_shiftLeftFlag (a : Byte) : (flagByte (shiftLeftFlag a)).toNat = a.toNat / 128 := by
  have ha := a.isLt
  rw [toNat_flagByte, shiftLeftFlag, BitVec.getLsbD, Nat.toNat_testBit]
  omega

/-! ## A difference and its borrow -/

/-- Subtraction of bytes is subtraction of integers modulo 256. -/
theorem toNat_sub_cast (a b : Byte) : ((a - b).toNat : Int) = (a.toNat - b.toNat : Int) % 256 := by
  have hb := b.isLt
  rw [BitVec.toNat_sub]
  omega

/-- What both subtractions leave, whatever the minuend and the subtrahend are read from. -/
theorem State.setRegFlag_sub (s : State) (x : Reg) (minuend subtrahend : Byte) :
    let t := s.setRegFlag x (minuend - subtrahend) (borrowFlag minuend subtrahend)
    (minuend.toNat < subtrahend.toNat → t.reg VF = 1#8) ∧ (subtrahend.toNat ≤ minuend.toNat → t.reg VF = 0#8) ∧
      (x ≠ VF → ((t.reg x).toNat : Int) = (minuend.toNat - subtrahend.toNat : Int) % 256) ∧ Frame [x, VF] [] s t := by
  refine ⟨fun hlt => ?_, fun hle => ?_, fun hx => ?_, s.setRegFlag_frame _ _ _⟩
  · rw [State.reg_VF_setRegFlag, borrowFlag_of_lt hlt, flagByte, if_pos rfl]
  · rw [State.reg_VF_setRegFlag, borrowFlag_of_le hle, flagByte, if_neg Bool.false_ne_true]
  · rw [State.reg_setRegFlag_of_ne hx, toNat_sub_cast]

/-! ## The statements -/

/-- Settles O33: the carry by `toNat_flagByte_carryFlag`, the sum by the definition of addition. -/
theorem addReportsTheCarry : Obligations.AddReportsTheCarry := by
  refine fun x y s => ⟨decodeWord_encode (i := .addVxVy x y) rfl, _, rfl, ?_, fun hx => ?_, s.setRegFlag_frame _ _ _⟩
  · rw [State.reg_VF_setRegFlag, toNat_flagByte_carryFlag]
  · rw [State.reg_setRegFlag_of_ne hx, BitVec.toNat_add]

/-- Settles O34: the two instructions are `State.setRegFlag_sub` with the operands one way and the other. -/
theorem subtractReportsTheBorrow : Obligations.SubtractReportsTheBorrow :=
  fun x y s => ⟨⟨decodeWord_encode (i := .subVxVy x y) rfl, _, rfl, s.setRegFlag_sub x (s.reg x) (s.reg y)⟩,
    decodeWord_encode (i := .subnVxVy x y) rfl, _, rfl, s.setRegFlag_sub x (s.reg y) (s.reg x)⟩

/-- Settles O35: the flags by `toNat_flagByte_shiftRightFlag` and `toNat_flagByte_shiftLeftFlag`; neither handler takes `y`. -/
theorem shiftsReportTheBitOut : Obligations.ShiftsReportTheBitOut := by
  refine fun x y s => ⟨⟨decodeWord_encode (i := .shrVx x y) rfl, _, rfl, ?_, fun hx => ?_, s.setRegFlag_frame _ _ _⟩,
    decodeWord_encode (i := .shlVx x y) rfl, _, rfl, ?_, fun hx => ?_, s.setRegFlag_frame _ _ _⟩
  · rw [State.reg_VF_setRegFlag, toNat_flagByte_shiftRightFlag]
  · rw [State.reg_setRegFlag_of_ne hx, BitVec.toNat_ushiftRight, Nat.shiftRight_one]
  · rw [State.reg_VF_setRegFlag, toNat_flagByte_shiftLeftFlag]
  · rw [State.reg_setRegFlag_of_ne hx, BitVec.toNat_shiftLeft, Nat.shiftLeft_eq, pow_one, Nat.mul_comm]

/-- Settles O31: both handlers write one register (`State.setReg_frame`), and addition is modulo 256. -/
theorem literalLoadAndAdd : Obligations.LiteralLoadAndAdd := by
  refine fun x kk s => ⟨⟨decodeWord_encode (i := .ldVxKk x kk) rfl, _, rfl, ?_, s.setReg_frame _ _⟩,
    decodeWord_encode (i := .addVxKk x kk) rfl, _, rfl, ?_, s.setReg_frame _ _⟩
  · exact State.reg_setReg_self s x kk
  · rw [State.reg_setReg_self, BitVec.toNat_add]

/-- Settles O32: all four handlers write one register (`State.setReg_frame`), and the logic is bit by bit. -/
theorem copyAndLogic : Obligations.CopyAndLogic := by
  refine fun x y s => ⟨⟨decodeWord_encode (i := .ldVxVy x y) rfl, _, rfl, ?_, s.setReg_frame _ _⟩,
    ⟨decodeWord_encode (i := .orVxVy x y) rfl, _, rfl, fun k => ?_, s.setReg_frame _ _⟩,
    ⟨decodeWord_encode (i := .andVxVy x y) rfl, _, rfl, fun k => ?_, s.setReg_frame _ _⟩,
    decodeWord_encode (i := .xorVxVy x y) rfl, _, rfl, fun k => ?_, s.setReg_frame _ _⟩
  · exact State.reg_setReg_self s x (s.reg y)
  · rw [State.reg_setReg_self, BitVec.getLsbD_or]
  · rw [State.reg_setReg_self, BitVec.getLsbD_and]
  · rw [State.reg_setReg_self, BitVec.getLsbD_xor]

end Sys2Proof.Machine
end

section
/-! PROOFS. The statements about the index register and the memory instructions (44_index_memory.md): the three writes of `I`,
the decimal store, the two block transfers, their fault, and a block store followed by a block load. -/

namespace Sys2Proof.Machine

variable {i : Instr} {s : State} {m : Memory} {x r : Reg}

/-! ## The index register as a number -/

theorem toNat_add_zextByte (w : Word) (b : Byte) : (w + zextByte b).toNat = (w.toNat + b.toNat) % 65536 := by
  rw [BitVec.toNat_add, zextByte, BitVec.toNat_setWidth_of_le (by decide)]

/-- The address of a glyph does not wrap, even of the byte 255. -/
theorem toNat_glyphAddress (b : Byte) : (glyphAddress b).toNat = 5 * b.toNat := by
  have hb := b.isLt
  rw [glyphAddress, BitVec.toNat_ofNat, fontBase, glyphBytes]
  omega

/-- `BLOCK_ADVANCE(x)` is `x + 2`, added modulo 65536 (44_index_memory.md R144, R145). -/
theorem toNat_add_blockAdvance (w : Word) (x : Reg) :
    (w + blockAdvance x).toNat = (w.toNat + x.toNat + 2) % 65536 := by
  have hx := x.isLt
  rw [blockAdvance, BitVec.toNat_add, BitVec.toNat_add, BitVec.toNat_setWidth_of_le (by decide), BitVec.toNat_ofNat]
  omega

theorem State.setI_frame (s : State) (w : Word) : Frame [] [.i] s (s.setI w) := by
  simp [Frame]

/-- Settles O36: each handler is one `setI`, and the three values are the lemmas above and `toNat_zextAddr`. -/
theorem indexRegisterWrites : Obligations.IndexRegisterWrites := by
  refine fun nnn x s => ⟨⟨decodeWord_encode (i := .ldI nnn) rfl, _, rfl, ?_, s.setI_frame _⟩,
    ⟨decodeWord_encode (i := .addIVx x) rfl, _, rfl, ?_, s.setI_frame _⟩,
    decodeWord_encode (i := .ldFVx x) rfl, _, rfl, ?_, s.setI_frame _⟩
  · exact toNat_zextAddr nnn
  · exact toNat_add_zextByte s.i (s.reg x)
  · exact toNat_glyphAddress (s.reg x)

/-! ## The range fault -/

/-- A handler whose data range goes above the last byte raises DATA_RANGE, and no other fault (60_exceptions.md R177). -/
theorem raisesDataRange_of_lt (hd : dataBytes i ≠ 0) (h : 4096 < s.i.toNat + dataBytes i) : RaisesDataRange i s := by
  have hr : Raises i s .dataRange := .inr (.inr ⟨hd, h, rfl⟩)
  rcases exec_cases i s with ⟨c, hc, hx⟩ | ⟨t, hc, -⟩
  · obtain rfl : c = .dataRange := hc.unique hr
    exact ⟨hx, rfl⟩
  · exact absurd hr (hc .dataRange)

/-! ## The decimal store -/

theorem State.setMem_frame (s : State) (m : Memory) : Frame [] [.mem] s (s.setMem m) := by
  simp [Frame]

/-- The digits of a byte as numbers (44_index_memory.md R143). -/
theorem map_toNat_decimalDigits (b : Byte) :
    (decimalDigits b).map BitVec.toNat = [b.toNat / 100, b.toNat / 10 % 10, b.toNat % 10] := by
  simp [decimalDigits]

/-- The digits of a byte in memory: digit `k` at address `base + k`. -/
theorem Memory.toNat_read_writeList_decimalDigits {base k : Nat} {b : Byte} (hm : m.wf = true) (h : base + 3 ≤ 4096)
    (hk : k < 3) : ((m.writeList base (decimalDigits b)).read (base + k)).toNat =
      [b.toNat / 100, b.toNat / 10 % 10, b.toNat % 10][k] := by
  have hlt : k < (decimalDigits b).length := hk
  rw [Memory.read_writeList_inside hm h hlt]
  simp only [← map_toNat_decimalDigits, List.getElem_map]

/-- Settles O37: the store puts digit `k` at `I + k` (`Memory.toNat_read_writeList_decimalDigits`). -/
theorem decimalStore : Obligations.DecimalStore := by
  refine fun x s hm => ⟨decodeWord_encode (i := .ldBVx x) rfl, fun hi => ?_, fun hi => ?_⟩
  · have hle : s.i.toNat + 3 ≤ 4096 := by omega
    have hdigit {k : Nat} (hk : k < 3) := Memory.toNat_read_writeList_decimalDigits (b := s.reg x) hm hle hk
    refine ⟨_, exec_ldBVx_of_le hle, ?_, ?_, ?_, ?_, s.setMem_frame _⟩
    · exact hdigit (k := 0) (by decide)
    · exact hdigit (k := 1) (by decide)
    · exact hdigit (k := 2) (by decide)
    · exact fun a ha => Memory.read_writeList_outside ha
  · exact raisesDataRange_of_lt (by simp [dataBytes]) (by simp only [dataBytes]; omega)

/-! ## The block store -/

theorem State.setMem_setI_frame (s : State) (m : Memory) (w : Word) : Frame [] [.mem, .i] s ((s.setMem m).setI w) := by
  simp [Frame]

/-- A block of registers in memory, by register: `V[r]` at address `base + r`. -/
theorem Memory.read_writeList_regsUpTo_reg {base : Nat} (hm : m.wf = true) (h : base + (x.toNat + 1) ≤ 4096)
    (hr : r.toNat ≤ x.toNat) : (m.writeList base (s.regsUpTo x)).read (base + r.toNat) = s.reg r := by
  rw [Memory.read_writeList_regsUpTo hm h hr, BitVec.ofNat_toNat, BitVec.setWidth_eq]

/-- Settles O38: the store puts `V[r]` at `I + r` (`Memory.read_writeList_regsUpTo_reg`). -/
theorem blockStore : Obligations.BlockStore := by
  refine fun x s hm => ⟨decodeWord_encode (i := .ldMemVx x) rfl, fun hi => ?_, fun hi => ?_⟩
  · have hle : s.i.toNat + (x.toNat + 1) ≤ 4096 := by omega
    refine ⟨_, exec_ldMemVx_of_le hle, fun r hr => ?_, fun a ha => ?_, ?_, s.setMem_setI_frame _ _⟩
    · exact Memory.read_writeList_regsUpTo_reg hm hle hr
    · exact Memory.read_writeList_outside (by rwa [State.length_regsUpTo])
    · exact toNat_add_blockAdvance s.i x
  · exact raisesDataRange_of_lt (by simp [dataBytes]) (by simp only [dataBytes]; omega)

/-! ## The block load -/

/-- `LD Vx, [I]` with its whole range in memory loads the block and moves `I` (44_index_memory.md R145). -/
theorem exec_ldVxMem_of_le (h : s.i.toNat + (x.toNat + 1) ≤ 4096) :
    exec (.ldVxMem x) s =
      .next ((s.setRegsFrom 0 (s.mem.readList s.i.toNat (x.toNat + 1))).setI (s.i + blockAdvance x)) := by
  have hm : s.mem.readRange s.i.toNat (x.toNat + 1) = some _ := Memory.readRange_eq_some.mpr ⟨.inr h, rfl⟩
  simp only [exec, execLdVxMem, hm]

/-- A block of memory in the registers: `V[0]` to `V[x]` take their bytes, and the registers above keep their values. -/
theorem State.reg_setRegsFrom_readList (s : State) (m : Memory) (base : Nat) (x r : Reg) :
    (s.setRegsFrom 0 (m.readList base (x.toNat + 1))).reg r =
      if r.toNat ≤ x.toNat then m.read (base + r.toNat) else s.reg r := by
  have hx := x.isLt
  rw [State.reg_setRegsFrom (by rw [Memory.length_readList]; omega)]
  by_cases hr : r.toNat ≤ x.toNat
  · rw [if_pos hr, dif_pos (by rw [Memory.length_readList]; omega), Memory.getElem_readList, Nat.sub_zero]
  · rw [if_neg hr, dif_neg (by rw [Memory.length_readList]; omega)]

theorem mem_map_ofNat_range_iff : r ∈ (List.range (x.toNat + 1)).map (BitVec.ofNat 4) ↔ r.toNat ≤ x.toNat := by
  have hx := x.isLt
  rw [List.mem_map]
  constructor
  · rintro ⟨k, hk, rfl⟩
    rw [List.mem_range] at hk
    rw [BitVec.toNat_ofNat]
    omega
  · exact fun hr => ⟨r.toNat, List.mem_range.mpr (Nat.lt_succ_of_le hr), by rw [BitVec.ofNat_toNat, BitVec.setWidth_eq]⟩

theorem State.setRegsFrom_setI_frame (s : State) (m : Memory) (base : Nat) (x : Reg) (w : Word) :
    Frame ((List.range (x.toNat + 1)).map (BitVec.ofNat 4)) [.i] s
      ((s.setRegsFrom 0 (m.readList base (x.toNat + 1))).setI w) := by
  refine ⟨fun r hr => ?_, ?_⟩
  · rw [mem_map_ofNat_range_iff] at hr
    rw [State.setI_reg, State.reg_setRegsFrom_readList, if_neg hr]
  · rw [State.setRegsFrom_eq]
    simp

/-- Settles O39: the registers after the load are `State.reg_setRegsFrom_readList`. -/
theorem blockLoad : Obligations.BlockLoad := by
  refine fun x s => ⟨decodeWord_encode (i := .ldVxMem x) rfl, fun hi => ?_, fun hi => ?_⟩
  · refine ⟨_, exec_ldVxMem_of_le (by omega), fun r hr => ?_, ?_, s.setRegsFrom_setI_frame _ _ _ _⟩
    · rw [State.setI_reg, State.reg_setRegsFrom_readList, if_pos hr]
    · exact toNat_add_blockAdvance s.i x
  · exact raisesDataRange_of_lt (by simp [dataBytes]) (by simp only [dataBytes]; omega)

/-! ## The round trip -/

/-- Settles O40: the load reads each register's byte where the store put it, and both move `I` by the same amount. -/
theorem blockTransferRoundTrips : Obligations.BlockTransferRoundTrips := by
  intro x s hm hi
  have hle : s.i.toNat + (x.toNat + 1) ≤ 4096 := by omega
  refine ⟨_, exec_ldMemVx_of_le hle, fun t' hmem hti => ?_⟩
  refine ⟨_, exec_ldVxMem_of_le (by rwa [hti]), fun r hr => ?_, ?_⟩
  · rw [State.setI_reg, State.reg_setRegsFrom_readList, if_pos hr, hmem, hti]
    exact Memory.read_writeList_regsUpTo_reg hm hle hr
  · rw [State.setI_i, State.setI_i, hti]

end Sys2Proof.Machine
end

section
/-! PROOFS. The statements about random and draw (45_random_draw.md): the masked free byte, the pixels of a sprite, one draw
and its fault, and the same draw twice. -/

namespace Sys2Proof.Machine

variable {s : State} {x y : Reg} {n : Nibble}

/-! ## Masked random -/

theorem State.setRegDrawn_frame (s : State) (x : Reg) (b : Byte) : Frame [x] [.draws] s (s.setRegDrawn x b) := by
  rw [State.setRegDrawn_eq]
  refine ⟨fun r hr => ?_, by simp⟩
  rw [State.countDraw_reg, State.reg_setReg_of_ne (List.ne_of_not_mem_cons hr)]

/-- Settles O42: the handler is one `setRegDrawn`, and an AND is bit by bit and at most its mask. -/
theorem randomIsMasked : Obligations.RandomIsMasked := by
  intro x kk s
  have hreg : (s.setRegDrawn x (Config.rand8 s.draws &&& kk)).reg x = Config.rand8 s.draws &&& kk := by
    rw [State.setRegDrawn_eq, State.countDraw_reg, State.reg_setReg_self]
  refine ⟨decodeWord_encode (i := .rnd x kk) rfl, _, rfl, ⟨_, rfl, fun b => ?_⟩, ?_, rfl, s.setRegDrawn_frame _ _⟩
  · rw [hreg, BitVec.getLsbD_and]
  · rw [hreg, BitVec.toNat_and]
    exact Nat.and_le_right

/-! ## The pixels of a sprite are distinct -/

/-- Within 32 rows and 8 columns neither wrap brings two bits of a sprite together (45_random_draw.md R154). -/
theorem pixelIndex_inj {sx sy lo r r' b b' : Nat} (hr : lo ≤ r ∧ r < lo + 32) (hr' : lo ≤ r' ∧ r' < lo + 32) (hb : b < 8)
    (hb' : b' < 8) (h : pixelIndex sx sy r b = pixelIndex sx sy r' b') : r = r' ∧ b = b' := by
  rw [pixelIndex_eq, pixelIndex_eq] at h
  omega

theorem nodup_rowPixels (sx sy r : Nat) (row : Byte) : (rowPixels sx sy r row).Nodup := by
  have hbits : [0, 1, 2, 3, 4, 5, 6, 7].Nodup := by decide
  have hlt : ∀ b ∈ [0, 1, 2, 3, 4, 5, 6, 7], b < 8 := by decide
  refine (hbits.filter _).map_on fun b hb b' hb' h => ?_
  have hr : r ≤ r ∧ r < r + 32 := by omega
  exact (pixelIndex_inj hr hr (hlt b (List.mem_of_mem_filter hb)) (hlt b' (List.mem_of_mem_filter hb')) h).2

theorem nodup_spritePixels {sx sy r : Nat} {rows : List Byte} (h : rows.length ≤ 32) :
    (spritePixels sx sy r rows).Nodup := by
  induction rows generalizing r with
  | nil => exact List.nodup_nil
  | cons row rows ih =>
    rw [List.length_cons] at h
    refine (nodup_rowPixels sx sy r row).append (ih (by omega)) fun p hfirst hrest => ?_
    obtain ⟨b, hb, -, rfl⟩ := mem_rowPixels.mp hfirst
    obtain ⟨k, b', hk, hb', -, hp⟩ := mem_spritePixels.mp hrest
    have hrow := (pixelIndex_inj (lo := r) (by omega) (by omega) hb hb' hp).1
    omega

theorem lt_of_mem_spritePixels {sx sy r p : Nat} {rows : List Byte} (h : p ∈ spritePixels sx sy r rows) : p < 2048 := by
  obtain ⟨k, b, -, -, -, rfl⟩ := mem_spritePixels.mp h
  exact pixelIndex_lt _ _ _ _

/-- Settles O44: at most 15 rows are at most the 32 of `nodup_spritePixels`. -/
theorem spriteHitsNoPixelTwice : Obligations.SpriteHitsNoPixelTwice :=
  fun _ _ _ h => ⟨nodup_spritePixels (by omega), fun _ => lt_of_mem_spritePixels⟩

/-! ## The pixels that a draw toggles -/

/-- The pixels that `DRW Vx, Vy, n` toggles in the state `s`, in their order. -/
def State.sprite (s : State) (x y : Reg) (n : Nibble) : List Nat :=
  spritePixels (s.reg x).toNat (s.reg y).toNat 0 (s.mem.readList s.i.toNat n.toNat)

/-- The sprite of `DRW Vx, Vy, n` in the state `s` hits the pixel of display row `row` and column `col`. -/
def State.Hits (s : State) (x y : Reg) (n : Nibble) (row col : Nat) : Prop :=
  SpriteHits s.mem s.i.toNat n.toNat (s.reg x).toNat (s.reg y).toNat row col

theorem State.nodup_sprite (s : State) (x y : Reg) (n : Nibble) : (s.sprite x y n).Nodup := by
  have hn := n.isLt
  exact nodup_spritePixels (by rw [Memory.length_readList]; omega)

theorem State.lt_of_mem_sprite {p : Nat} (h : p ∈ s.sprite x y n) : p < 2048 := lt_of_mem_spritePixels h

/-- The pixel numbers of the model are the rows and columns of the statements (45_random_draw.md R152). -/
theorem State.mem_sprite_iff {p : Nat} :
    p ∈ s.sprite x y n ↔ ∃ row col, row < 32 ∧ col < 64 ∧ p = row * 64 + col ∧ s.Hits x y n row col := by
  simp only [State.sprite, mem_spritePixels, Memory.getElem_readList, Memory.length_readList, pixelIndex_eq, Nat.zero_add]
  constructor
  · rintro ⟨r, b, hr, hb, hbit, rfl⟩
    exact ⟨_, _, Nat.mod_lt _ (by decide), Nat.mod_lt _ (by decide), rfl, r, b, hr, hb, hbit, rfl, rfl⟩
  · rintro ⟨_, _, -, -, rfl, r, b, hr, hb, hbit, rfl, rfl⟩
    exact ⟨r, b, hr, hb, hbit, rfl⟩

theorem State.pixel_mem_sprite_iff {row col : Nat} (hcol : col < 64) :
    row * 64 + col ∈ s.sprite x y n ↔ row < 32 ∧ s.Hits x y n row col := by
  rw [State.mem_sprite_iff]
  constructor
  · rintro ⟨row', col', hrow', hcol', hp, hhit⟩
    obtain ⟨rfl, rfl⟩ : row = row' ∧ col = col' := by omega
    exact ⟨hrow', hhit⟩
  · exact fun ⟨hrow, hhit⟩ => ⟨row, col, hrow, hcol, rfl, hhit⟩

/-- Some pixel of the sprite is lit (`lit`) or dark. -/
theorem State.exists_mem_sprite_iff {d : Display} {lit : Bool} :
    (∃ p ∈ s.sprite x y n, d.pixel p = lit) ↔
      ∃ row col, row < 32 ∧ col < 64 ∧ d.pixel (row * 64 + col) = lit ∧ s.Hits x y n row col := by
  simp only [State.mem_sprite_iff]
  constructor
  · rintro ⟨_, ⟨row, col, hrow, hcol, rfl, hhit⟩, hp⟩
    exact ⟨row, col, hrow, hcol, hp, hhit⟩
  · rintro ⟨row, col, hrow, hcol, hp, hhit⟩
    exact ⟨_, ⟨row, col, hrow, hcol, rfl, hhit⟩, hp⟩

/-! ## One draw -/

theorem flagByte_any_eq_one_iff {d : Display} {ps : List Nat} :
    flagByte (ps.any d.pixel) = 1#8 ↔ ∃ p ∈ ps, d.pixel p = true := by
  rw [← List.any_eq_true]
  cases ps.any d.pixel <;> decide

theorem State.setDisp_setFlag_frame (s : State) (d : Display) (f : Bool) :
    Frame [VF] [.disp] s ((s.setDisp d).setFlag f) := by
  rw [State.setFlag_eq]
  refine ⟨fun r hr => ?_, by simp⟩
  rw [State.reg_setReg_of_ne (List.ne_of_not_mem_cons hr), State.setDisp_reg]

/-- All that a draw with no row above the last byte does: it toggles the pixels of the sprite, which are distinct
(`Display.draw_spec`), and reports whether one of them was lit (45_random_draw.md R153). -/
theorem exec_drw_of_le (h : n.toNat = 0 ∨ s.i.toNat + n.toNat ≤ 4096) :
    ∃ t, exec (.drw x y n) s = .next t ∧
      (∀ p, t.disp.pixel p = (s.disp.pixel p ^^ decide (p ∈ s.sprite x y n))) ∧
      t.reg VF = flagByte ((s.sprite x y n).any s.disp.pixel) ∧ Frame [VF] [.disp] s t := by
  have hm : s.mem.readRange s.i.toNat n.toNat = some _ := Memory.readRange_eq_some.mpr ⟨h, rfl⟩
  have hx : exec (.drw x y n) s = .next ((s.setDisp (s.disp.draw (s.sprite x y n)).1).setFlag
      (s.disp.draw (s.sprite x y n)).2) := by
    simp only [exec, execDrw, hm, State.sprite]
  obtain ⟨hpixel, hcollision⟩ :=
    Display.draw_spec (d := s.disp) (fun _ => State.lt_of_mem_sprite) (s.nodup_sprite x y n)
  refine ⟨_, hx, hpixel, ?_, s.setDisp_setFlag_frame _ _⟩
  rw [State.setFlag_eq, State.reg_setReg_self, hcollision]

/-- Settles O43: `exec_drw_of_le` with the pixels as rows and columns, and the range fault of every data instruction. -/
theorem drawTogglesTheHitPixels : Obligations.DrawTogglesTheHitPixels := by
  refine fun x y n s => ⟨decodeWord_encode (i := .drw x y n) rfl, fun h => ?_, raisesDataRange_of_lt (i := .drw x y n)⟩
  obtain ⟨t, hx, hpixel, hVF, hframe⟩ := exec_drw_of_le (x := x) (y := y) h
  have hcollision := flagByte_any_eq_one_iff (d := s.disp) (ps := s.sprite x y n)
  have hflag := flagByte_cases ((s.sprite x y n).any s.disp.pixel)
  rw [← hVF, State.exists_mem_sprite_iff] at hcollision
  rw [← hVF] at hflag
  refine ⟨t, hx, fun row col hrow hcol => ⟨fun hhit => ?_, fun hmiss => ?_⟩, hcollision.mpr, fun hdark => ?_,
    hframe⟩
  · have hmem := (State.pixel_mem_sprite_iff hcol).mpr ⟨hrow, hhit⟩
    rw [hpixel, decide_eq_true hmem, Bool.xor_true]
  · have hmem := mt (State.pixel_mem_sprite_iff hcol).mp fun hc => hmiss hc.2
    rw [hpixel, decide_eq_false hmem, Bool.xor_false]
  · exact hflag.resolve_right (mt hcollision.mp hdark)

/-! ## The same draw twice -/

/-- Settles O45: both draws toggle the same pixels, so a pixel of the sprite is lit before the second draw exactly when it was
dark before the first. -/
theorem doubleDrawRestoresTheDisplay : Obligations.DoubleDrawRestoresTheDisplay := by
  intro x y n s h
  obtain ⟨t, hx, hpixel, -, -⟩ := exec_drw_of_le (x := x) (y := y) h
  refine ⟨t, hx, fun t' hdisp hmem hi hrx hry => ?_⟩
  obtain ⟨u, hx', hpixel', hVF, -⟩ := exec_drw_of_le (s := t') (x := x) (y := y) (n := n) (by rwa [hi])
  have hsprite : t'.sprite x y n = s.sprite x y n := by rw [State.sprite, State.sprite, hmem, hi, hrx, hry]
  rw [hsprite, hdisp] at hpixel' hVF
  refine ⟨u, hx', Display.ext_pixel fun p _ => ?_, ?_, ?_⟩
  · rw [hpixel', hpixel, Bool.xor_assoc, Bool.xor_self, Bool.xor_false]
  · rw [hVF]
    exact flagByte_cases _
  · rw [hVF, flagByte_any_eq_one_iff]
    refine Iff.trans (exists_congr fun p => and_congr_right fun hp => ?_) State.exists_mem_sprite_iff
    rw [hpixel, decide_eq_true hp, Bool.xor_true, Bool.not_eq_true']

end Sys2Proof.Machine
end

section
/-! PROOFS. The statements about keys and timers (46_keys_timers.md): the key-wait, the two key skips, and the access to the
timers. -/

namespace Sys2Proof.Machine

variable {s t : State} {w : Word} {x : Reg} {a b : Word} {k : Nat}

/-! ## The comparison of the masks, bit by bit -/

/-- Bit `k` is the one bit in which two masks differ (46_keys_timers.md R163). -/
def OnlyBitDiffers (a b : Word) (k : Nat) : Prop := ∀ bit, bit < 16 → (a.getLsbD bit ≠ b.getLsbD bit ↔ bit = k)

/-- That one bit differs is what `keyChange` finds: the XOR of the masks is a power of two. -/
theorem xor_eq_twoPow_iff : a ^^^ b = BitVec.twoPow 16 k ↔ OnlyBitDiffers a b k := by
  have hbit (bit : Nat) (hlt : bit < 16) :
      (a ^^^ b).getLsbD bit = (BitVec.twoPow 16 k).getLsbD bit ↔ (a.getLsbD bit ≠ b.getLsbD bit ↔ bit = k) := by
    have hk : k < 16 ∧ k = bit ↔ bit = k := by omega
    rw [BitVec.getLsbD_xor, BitVec.getLsbD_twoPow, Bool.eq_iff_iff, Bool.xor_iff_ne, Bool.and_eq_true, decide_eq_true_eq,
      decide_eq_true_eq, hk]
  exact ⟨fun h bit hlt => (hbit bit hlt).mp (by rw [h]),
    fun h => BitVec.eq_of_getLsbD_eq fun bit hlt => (hbit bit hlt).mpr (h bit hlt)⟩

/-- `keyChange_cases` with the bits of the two masks in place of their XOR. -/
theorem keyChange_bit_cases (a b : Word) :
    (a = b ∧ keyChange a b = .unchanged) ∨
    (∃ k, k < 16 ∧ OnlyBitDiffers a b k ∧ keyChange a b = .single (BitVec.ofNat 8 k)) ∨
    (a ≠ b ∧ (¬∃ k, k < 16 ∧ OnlyBitDiffers a b k) ∧ keyChange a b = .several) := by
  simpa only [ne_eq, xor_eq_twoPow_iff, not_exists, not_and] using keyChange_cases a b

theorem OnlyBitDiffers.ne (h : OnlyBitDiffers a b k) (hk : k < 16) : a ≠ b :=
  fun heq => (h k hk).mpr rfl (by rw [heq])

theorem OnlyBitDiffers.unique {k' : Nat} (h : OnlyBitDiffers a b k) (h' : OnlyBitDiffers a b k') (hk : k < 16) : k = k' :=
  (h' k hk).mp ((h k hk).mpr rfl)

theorem keyChange_self (a : Word) : keyChange a a = .unchanged := by
  rw [keyChange, BitVec.xor_self, if_pos rfl]

theorem keyChange_of_onlyBitDiffers (h : OnlyBitDiffers a b k) (hk : k < 16) :
    keyChange a b = .single (BitVec.ofNat 8 k) := by
  rcases keyChange_bit_cases a b with ⟨heq, -⟩ | ⟨k', -, hdiff, hchange⟩ | ⟨-, hnone, -⟩
  · exact absurd heq (h.ne hk)
  · rw [hchange, h.unique hdiff hk]
  · exact absurd ⟨k, hk, h⟩ hnone

theorem keyChange_of_several (hne : a ≠ b) (h : ¬∃ k, k < 16 ∧ OnlyBitDiffers a b k) : keyChange a b = .several := by
  rcases keyChange_bit_cases a b with ⟨heq, -⟩ | ⟨k, hk, hdiff, -⟩ | ⟨-, -, hchange⟩
  · exact absurd heq hne
  · exact absurd ⟨k, hk, hdiff⟩ h
  · exact hchange

/-! ## The key-wait -/

theorem exec_ldVxK_of_unchanged (h : keyChange s.inputMask s.prevMask = .unchanged) :
    exec (.ldVxK x) s = .next (s.setPc (s.pc - 2#16)) := by
  simp only [exec, execLdVxK, h]

theorem exec_ldVxK_of_single {key : Byte} (h : keyChange s.inputMask s.prevMask = .single key) :
    exec (.ldVxK x) s = .next (s.setReg x key) := by
  simp only [exec, execLdVxK, h]

theorem exec_ldVxK_of_several (h : keyChange s.inputMask s.prevMask = .several) :
    exec (.ldVxK x) s = .next (s.setRegDrawn x (Config.keyWaitMulti s.draws s.inputMask s.prevMask)) := by
  simp only [exec, execLdVxK, h]

theorem State.setPc_frame (s : State) (target : Word) : Frame [] [.pc] s (s.setPc target) := by
  simp [Frame]

theorem State.reg_setRegDrawn_self (s : State) (x : Reg) (b : Byte) : (s.setRegDrawn x b).reg x = b := by
  rw [State.setRegDrawn_eq, State.countDraw_reg, State.reg_setReg_self]

/-- Settles O46: the three conditions on the masks are the three answers of `keyChange`, and each answer is one write. -/
theorem keyWaitReportsTheChangedKey : Obligations.KeyWaitReportsTheChangedKey := by
  refine fun x s => ⟨decodeWord_encode (i := .ldVxK x) rfl, fun heq => ?_, fun k hk hdiff => ?_, fun hne hnone => ?_⟩
  · have hchange : keyChange s.inputMask s.prevMask = .unchanged := by rw [heq, keyChange_self]
    exact ⟨_, exec_ldVxK_of_unchanged hchange, rfl, s.setPc_frame _⟩
  · refine ⟨_, exec_ldVxK_of_single (keyChange_of_onlyBitDiffers hdiff hk), ?_, s.setReg_frame _ _⟩
    rw [State.reg_setReg_self, BitVec.toNat_ofNat]
    omega
  · exact ⟨_, exec_ldVxK_of_several (keyChange_of_several hne hnone), s.reg_setRegDrawn_self _ _, rfl,
      s.setRegDrawn_frame _ _⟩

/-! ## The key skips -/

theorem keyHeld_of_le {mask : Word} {key : Byte} (h : key.toNat ≤ 15) : keyHeld mask key = mask.getLsbD key.toNat := by
  rw [keyHeld, decide_eq_true h, Bool.true_and]

theorem keyHeld_of_lt {mask : Word} {key : Byte} (h : 15 < key.toNat) : keyHeld mask key = false := by
  rw [keyHeld, decide_eq_false (Nat.not_le.mpr h), Bool.false_and]

/-- Settles O29: both handlers are `skipIf` of the key test or of its negation. -/
theorem keySkips : Obligations.KeySkips := by
  refine fun x s => ⟨⟨decodeWord_encode (i := .skp x) rfl, s.skipIf (keyHeld s.inputMask (s.reg x)), rfl, ?_⟩,
    decodeWord_encode (i := .sknp x) rfl, s.skipIf (!keyHeld s.inputMask (s.reg x)), rfl, ?_⟩
  · exact ⟨fun hkey hbit => by simp [keyHeld_of_le hkey, hbit], fun hkey hbit => by simp [keyHeld_of_le hkey, hbit],
      fun hkey => by simp [keyHeld_of_lt hkey], s.skipIf_frame _⟩
  · exact ⟨fun hkey hbit => by simp [keyHeld_of_le hkey, hbit], fun hkey hbit => by simp [keyHeld_of_le hkey, hbit],
      fun hkey => by simp [keyHeld_of_lt hkey], s.skipIf_frame _⟩

/-! ## The timers -/

theorem State.setDt_frame (s : State) (b : Byte) : Frame [] [.dt] s (s.setDt b) := by
  simp [Frame]

theorem State.setSt_frame (s : State) (b : Byte) : Frame [] [.st] s (s.setSt b) := by
  simp [Frame]

/-- A cycle whose handler does not fault ends with the tail (40_cycle_driver.md R80). -/
theorem step_of_exec (hs : s.fault = .noFault) (hw : s.fetchWord = some w) (h : exec (decodeWord w) s.advance = .next t)
    (ht : t.fault = .noFault) : step s = .next t.tail := by
  rw [step_of_fetch_some hs hw, h, finishOutcome, State.finish_running ht]

/-- Settles O47: each handler is one write; over the cycle `step_of_exec` puts the tail's decrement after it. -/
theorem timerAccess : Obligations.TimerAccess := by
  refine ⟨fun x s => ⟨?_, ?_, ?_⟩, fun x s w hs hw => ⟨fun hi => ?_, fun hi => ?_, fun hi => ?_⟩⟩
  · exact ⟨decodeWord_encode (i := .ldVxDt x) rfl, _, rfl, s.reg_setReg_self x s.dt, s.setReg_frame _ _⟩
  · exact ⟨decodeWord_encode (i := .ldDtVx x) rfl, _, rfl, s.setDt_dt _, s.setDt_frame _⟩
  · exact ⟨decodeWord_encode (i := .ldStVx x) rfl, _, rfl, s.setSt_st _, s.setSt_frame _⟩
  · have hx : exec (decodeWord w) s.advance = .next (s.advance.setReg x s.dt) := by rw [hi]; rfl
    refine ⟨_, step_of_exec hs hw hx hs, ?_, toNat_tick _⟩
    rw [State.tail_reg, State.reg_setReg_self]
  · have hx : exec (decodeWord w) s.advance = .next (s.advance.setDt (s.reg x)) := by rw [hi]; rfl
    exact ⟨_, step_of_exec hs hw hx hs, toNat_tick _⟩
  · have hx : exec (decodeWord w) s.advance = .next (s.advance.setSt (s.reg x)) := by rw [hi]; rfl
    exact ⟨_, step_of_exec hs hw hx hs, toNat_tick _⟩

end Sys2Proof.Machine
end

section
/-! PROOFS. The statements about the faults (60_exceptions.md): what the entry of a fault leaves and reports, exactly when each
of the four is raised, and the report of each. -/

namespace Sys2Proof.Machine

variable {i : Instr} {s t : State} {w : Word} {c : FaultCode}

/-! ## The cycle that raises, and its report -/

/-- A cycle whose handler raises sets the latch and changes nothing else (60_exceptions.md R172, R173). -/
theorem step_of_raises (hs : s.fault = .noFault) (hw : s.fetchWord = some w) (hc : Raises (decodeWord w) s c) :
    step s = .next (s.enterFault c) := by
  rcases exec_cases (decodeWord w) s.advance with ⟨c', hc', hx⟩ | ⟨u, hnone, -⟩
  · obtain rfl : c' = c := Raises.unique hc' hc
    rw [step_of_fetch_some hs hw, hx, State.raise_advance, finishOutcome, State.finish_faulted hc.ne_noFault]
  · exact absurd hc (hnone c)

/-- The information value by cause (60_exceptions.md R171): `pc`, or the greater of `I` and 4096, or nothing. -/
theorem State.faultInfo_enterFault (s : State) (c : FaultCode) :
    (s.enterFault c).faultInfo =
      if c = .fetchRange then some s.pc.toNat
      else if c = .dataRange then some (max s.i.toNat 4096) else none := by
  cases c <;> rfl

theorem stepReport_enterFault (hs : s.fault = .noFault) (hc : c ≠ .noFault) :
    stepReport s (s.enterFault c) = some { cause := c, info := (s.enterFault c).faultInfo } := if_pos ⟨hs, hc⟩

/-- A step that enters a fault answers false and reports the cause and the information value (60_exceptions.md R172). -/
theorem hostStep_of_enterFault (hs : s.fault = .noFault) (hc : c ≠ .noFault) (h : step s = .next (s.enterFault c)) :
    hostStep s = .next (s.enterFault c, .ran false (some { cause := c, info := (s.enterFault c).faultInfo })) := by
  rw [hostStep_of_step h, stepRunning_of_faulted hc, stepReport_enterFault hs hc]

/-- Settles O11: a cycle that faults is the entry of a fault (`step_faulted`), whose report is `hostStep_of_enterFault`. -/
theorem faultEntryChangesOnlyTheLatch : Obligations.FaultEntryChangesOnlyTheLatch := by
  intro s t hs h ht
  obtain ⟨c, rfl⟩ := step_faulted hs h ht
  refine ⟨rfl, ?_⟩
  rw [hostStep_of_enterFault hs ht h, State.faultInfo_enterFault]
  rfl

/-! ## Exactly when each fault is raised -/

/-- A cycle sets the latch to `c` exactly when its fetch or its handler raises `c` (60_exceptions.md R171). -/
theorem step_fault_iff (hs : s.fault = .noFault) (h : step s = .next t) (hc : c ≠ .noFault) :
    t.fault = c ↔
      (c = .fetchRange ∧ 4094 < s.pc.toNat) ∨ ∃ w, s.fetchWord = some w ∧ Raises (decodeWord w) s c := by
  constructor
  · rintro rfl
    rcases step_running_cases hs h with ⟨hpc, rfl⟩ | ⟨w, c', hw, hc', rfl⟩ | ⟨w, u, -, -, -, -, hu, rfl⟩
    · exact .inl ⟨rfl, hpc⟩
    · exact .inr ⟨w, hw, hc'⟩
    · exact absurd hu hc
  · rintro (⟨rfl, hpc⟩ | ⟨w, hw, hr⟩)
    · rw [step_of_fetch_none hs (State.fetchWord_eq_none.mpr hpc)] at h
      cases h
      rfl
    · rw [step_of_raises hs hw hr] at h
      cases h
      rfl

theorem raises_stackOverflow_iff : Raises i s .stackOverflow ↔ ∃ nnn, i = .call nnn ∧ s.sp.val = 16 := by
  simp [Raises]

theorem raises_stackUnderflow_iff : Raises i s .stackUnderflow ↔ i = .ret ∧ s.sp.val = 0 := by
  simp [Raises]

theorem raises_dataRange_iff : Raises i s .dataRange ↔ dataBytes i ≠ 0 ∧ 4096 < s.i.toNat + dataBytes i := by
  simp [Raises]

/-- FETCH_RANGE is raised by the fetch alone (60_exceptions.md R176). -/
theorem not_raises_fetchRange : ¬Raises i s .fetchRange := by
  simp [Raises]

/-- Settles O12: `step_fault_iff` at each of the four causes, with the condition of that cause. -/
theorem faultCausesAreExactlyTheFour : Obligations.FaultCausesAreExactlyTheFour := by
  intro s t hs h
  refine ⟨?_, ?_, ?_, ?_⟩
  · simp [step_fault_iff hs h, not_raises_fetchRange]
  · simp [step_fault_iff hs h, raises_stackOverflow_iff]
  · simp [step_fault_iff hs h, raises_stackUnderflow_iff]
  · simp [step_fault_iff hs h, raises_dataRange_iff]

/-! ## Each fault in full -/

/-- The lowest address above 4095 that a range of `n` bytes from `base` up touches. -/
theorem isLeast_max_of_lt {base n : Nat} (h : 4096 < base + n) (hn : n ≠ 0) :
    IsLeast {a : Nat | 4095 < a ∧ ∃ k, k < n ∧ a = base + k} (max base 4096) := by
  refine ⟨⟨by omega, max base 4096 - base, by omega, by omega⟩, ?_⟩
  rintro a ⟨ha, k, -, rfl⟩
  omega

/-- Settles O13: the handler raises DATA_RANGE, and the value reported is the least address (`isLeast_max_of_lt`). -/
theorem dataAboveTheLastByteFaults : Obligations.DataAboveTheLastByteFaults := by
  intro s w hs hw hd hlt
  have hstep : step s = .next (s.enterFault .dataRange) :=
    step_of_raises hs hw (raises_dataRange_iff.mpr ⟨hd, hlt⟩)
  exact ⟨rfl, _, isLeast_max_of_lt hlt hd, hstep, hostStep_of_enterFault hs nofun hstep⟩

/-- Settles O14: each is the entry of its fault, with its report by `hostStep_of_enterFault`. -/
theorem fetchAndStackFaultsSetTheLatch : Obligations.FetchAndStackFaultsSetTheLatch := by
  refine fun s hs => ⟨fun hpc => ⟨rfl, ?_⟩, fun w nnn hw hi hsp => ⟨rfl, ?_⟩, fun w hw hi hsp => ⟨rfl, ?_⟩⟩
  · exact hostStep_of_enterFault hs nofun (step_of_fetch_none hs (State.fetchWord_eq_none.mpr hpc))
  · exact hostStep_of_enterFault hs nofun (step_of_raises hs hw (raises_stackOverflow_iff.mpr ⟨nnn, hi, hsp⟩))
  · exact hostStep_of_enterFault hs nofun (step_of_raises hs hw (raises_stackUnderflow_iff.mpr ⟨hi, hsp⟩))

end Sys2Proof.Machine
end

section
/-! PROOFS. The statements about the host's other transactions (40_cycle_driver.md, 70_reset_and_hazards.md): `Frame`,
`SetKey` and `Reset`, and the font that the default reset state holds. -/

namespace Sys2Proof.Machine

variable {s t : State}

/-! ## A frame is consecutive steps -/

/-- The state that a step leads to; `step_eq_afterStep` says that there always is one. -/
def State.afterStep (s : State) : State :=
  match step s with
  | .next t => t
  | .fault _ | .refused _ => s

theorem step_eq_afterStep (s : State) : step s = .next s.afterStep := by
  obtain ⟨t, ht⟩ := everyStepAnswersANextState s
  simp only [State.afterStep, ht]

/-- Steps one after another: the state after `k + 1` of them is one step from the state after `k`. -/
theorem step_iterate_afterStep (s : State) (k : Nat) :
    step (State.afterStep^[k] s) = .next (State.afterStep^[k + 1] s) := by
  rw [Function.iterate_succ_apply']
  exact step_eq_afterStep _

/-- `Step` answers true exactly when the result of its step is true, whatever its report. -/
theorem exists_hostStep_true_iff (h : step s = .next t) :
    (∃ report, hostStep s = .next (t, .ran true report)) ↔ stepRunning s t = true := by
  simp [hostStep_of_step h]

/-- The run of `n` steps ends in the state after them, and its result is the OR of theirs (40_cycle_driver.md R88). -/
theorem frameRun_spec (n : Nat) (s : State) : ∃ running report,
    frameRun n s = .next (State.afterStep^[n] s, running, report) ∧
    (running = true ↔ ∃ k, k < n ∧ stepRunning (State.afterStep^[k] s) (State.afterStep^[k + 1] s) = true) := by
  induction n generalizing s with
  | zero => exact ⟨false, none, rfl, by simp⟩
  | succ n ih =>
    obtain ⟨running, report, hrun, hor⟩ := ih s.afterStep
    refine ⟨stepRunning s s.afterStep || running, stepReport s s.afterStep <|> report, ?_, ?_⟩
    · simp only [frameRun, step_eq_afterStep, hrun, Function.iterate_succ_apply]
    · rw [Bool.or_eq_true, hor, Nat.exists_lt_succ_left]
      rfl

/-- Settles O55: the trace is the iterated step, and `frameRun_spec` says what the run of a frame answers. -/
theorem frameIsConsecutiveSteps : Obligations.FrameIsConsecutiveSteps := by
  refine ⟨fun _ _ => rfl, fun _ => rfl, fun n s => ?_⟩
  obtain ⟨running, report, hrun, hor⟩ := frameRun_spec n s
  have hstep := step_iterate_afterStep s
  refine ⟨fun k => State.afterStep^[k] s, running, report, rfl, fun k _ => hstep k, by simp only [hostFrame, hrun], ?_⟩
  simp only [hor, exists_and_left, exists_hostStep_true_iff (hstep _)]

/-! ## SetKey -/

theorem getLsbD_setKeyBit_self {mask : Word} {index : Nat} {held : Bool} (h : index ≤ 15) :
    (setKeyBit mask index held).getLsbD index = held := by
  have hlt : index < 16 := by omega
  cases held <;> simp [setKeyBit, hlt]

theorem getLsbD_setKeyBit_of_ne {mask : Word} {index k : Nat} {held : Bool} (h : k ≠ index) :
    (setKeyBit mask index held).getLsbD k = mask.getLsbD k := by
  cases held with
  | true => simp [setKeyBit, h.symm]
  | false => simpa [setKeyBit, h.symm] using BitVec.lt_of_getLsbD

theorem hostSetKey_of_le {index : Nat} {held : Bool} (h : index ≤ 15) :
    hostSetKey index held s = ({ s with inputMask := setKeyBit s.inputMask index held }, .done) := if_pos h

theorem hostSetKey_of_lt {index : Nat} {held : Bool} (h : 15 < index) :
    hostSetKey index held s = (s, .keyRefused) := if_neg (by omega)

theorem State.inputMask_frame (s : State) (mask : Word) : Frame [] [.inputMask] s { s with inputMask := mask } := by
  simp [Frame, State.reg]

/-- Settles O58: the new mask is `setKeyBit`, read bit by bit; an index above 15 is refused. -/
theorem setKeyWritesOneBit : Obligations.SetKeyWritesOneBit := by
  intro p index held s
  refine ⟨fun hle => ?_, fun hlt => by rw [perform, hostSetKey_of_lt hlt]⟩
  exact ⟨_, congrArg Host.Outcome.next (hostSetKey_of_le hle), getLsbD_setKeyBit_self hle,
    fun k hk => getLsbD_setKeyBit_of_ne hk, s.inputMask_frame _⟩

/-! ## Reset and the font -/

/-- Settles O56: `Reset` keeps the count of draws alone, and the bytes of the memory are those of the laws of reset. -/
theorem resetFromAnyState : Obligations.ResetFromAnyState := by
  intro p s
  exact ⟨hostReset p.font s, s.draws, rfl, rfl, rfl, rfl, fun _ h => State.read_resetWith_font p.font h,
    fun _ h => State.read_resetWith_above p.font h, Display.pixel_dark⟩

/-- The memory after reset determines the font. -/
theorem State.font_eq_of_mem_resetWith_eq {font font' : Vector Byte 80}
    (h : (State.resetWith font).mem = (State.resetWith font').mem) : font = font' := by
  apply Vector.ext
  intro a ha
  rw [← State.read_resetWith_font font ha, h, State.read_resetWith_font font' ha]

/-- Settles O60: the glyph rows are read by evaluation of the model's reset memory, and since that memory is the one of the
default font, no other font has it (`State.font_eq_of_mem_resetWith_eq`). -/
theorem resetUsesTheDefaultFont : Obligations.ResetUsesTheDefaultFont := by
  refine ⟨rfl, rfl, rfl, rfl, rfl, rfl, rfl, rfl, rfl, rfl, rfl, rfl, rfl, rfl, rfl, rfl, rfl,
    State.resetWith_defaultFont, ?_⟩
  rintro s font rfl hmem
  apply State.font_eq_of_mem_resetWith_eq
  rw [hmem, State.resetWith_defaultFont]
  rfl

end Sys2Proof.Machine
end
